-- ==== Sys2Proof/Word.lean ====
section
/-! DEFINITION. The words of the FIFO: indices, gray codes and records (00_scope.md R10). -/

namespace Sys2Proof

/-- A binary index, count or span: an unsigned value of `AW` bits (00_scope.md R10, R11). Its `+` and
`-` are the arithmetic modulo `C = 2^AW` that the spec writes with `& MASK`. -/
abbrev Index (aw : Nat) := BitVec aw

/-- An index in gray code, `AW` bits (30_encoding.md R76). -/
abbrev Gray (aw : Nat) := BitVec aw

/-- One record: an opaque word of `W` bits (20_memory.md R51, R52). -/
abbrev Record (w : Nat) := BitVec w

end Sys2Proof
end

