-- ==== Sys2Proof/Config.lean ====
section
/-! DEFINITION. The parameters of one FIFO, and the values the spec leaves open (free values). -/

namespace Sys2Proof

/-- The parameters `(W, AW, NS)` of one FIFO, fixed for the life of the block (00_scope.md R5, R6, R8,
R9). The proofs in the structure say that the configuration was not refused at construction. -/
structure Params where
  /-- `W`, the width of one record in bits (R5). -/
  W : Nat
  /-- `AW`, the width of each index in bits (R6). -/
  AW : Nat
  /-- `NS`, the number of flip-flops in every synchronizer chain (R8). -/
  NS : Nat
  W_pos : 1 ≤ W
  AW_pos : 1 ≤ AW
  NS_two : 2 ≤ NS
deriving DecidableEq, Repr

/-- The capacity `C = 2^AW` in slots (00_scope.md R6). -/
def Params.C (p : Params) : Nat := 2 ^ p.AW

/-- `MASK = C - 1` (00_scope.md R6). -/
def Params.MASK (p : Params) : Nat := p.C - 1

/-- Why a configuration is refused when the block is constructed (00_scope.md R9, 60_exceptions.md
R165). All are safe: no run of such a block exists. -/
inductive ConfigRefusal where
  /-- `W < 1`. -/
  | recordWidth
  /-- `AW < 1` (capacity 1 has no usable slot, 92_eei_decisions.md D23). -/
  | indexWidth
  /-- `NS < 2`. -/
  | syncStages
deriving DecidableEq, Repr

/-- Construction of a block: a configuration outside 00_scope.md R9 is refused. -/
def Params.construct (w aw ns : Nat) : Except ConfigRefusal Params :=
  if hw : 1 ≤ w then
    if ha : 1 ≤ aw then
      if hn : 2 ≤ ns then .ok ⟨w, aw, ns, hw, ha, hn⟩
      else .error .syncStages
    else .error .indexWidth
  else .error .recordWidth

namespace Config

/-- The default number of synchronizer stages (00_scope.md R8). -/
def defaultStages : Nat := 2

/-- The byte-stream block: `W = 8` (00_scope.md R7). -/
def byteStream (aw ns : Nat) : Except ConfigRefusal Params := Params.construct 8 aw ns

/-- The frame block: `W = N_AXES * AXIS_BITS` (00_scope.md R7). -/
def frame (nAxes axisBits aw ns : Nat) : Except ConfigRefusal Params :=
  Params.construct (nAxes * axisBits) aw ns

/-- The configuration of the test vectors (95_test_vectors.md, section 0): `W = 8`, `AW = 3`,
`NS = 2`. DESIGN CHOICE (log 1): `State.reset` has it. -/
def testVectors : Params := ⟨8, 3, 2, by decide, by decide, by decide⟩

end Config

/-- The six synchronizer links (42_cdc_sync.md R140). -/
inductive Link where
  /-- `L_WPTR`: `wgray` into the read domain. -/
  | wptr
  /-- `L_OVF`: `ovf` into the read domain. -/
  | ovf
  /-- `L_RPTR`: `rgray` into the write domain. -/
  | rptr
  /-- `L_UDF`: `udf` into the write domain. -/
  | udf
  /-- `LW_RST`: `rst` into the write domain. -/
  | wRst
  /-- `LR_RST`: `rst` into the read domain. -/
  | rRst
deriving DecidableEq, Repr

namespace Config

/-- FREE VALUE (log 4). The outcome of the draw of link `L` at the edge with number `tick`, where no
`@draw` fixes it: `true` takes `prev_L`, `false` the current value (42_cdc_sync.md R142). It has no
body, so nothing can be proved of it: "either, under no law", independently per link and per edge. -/
opaque freeDraw : Nat → Link → Bool

/-- FREE VALUE (log 5). What `rd_data` shows at observation number `obs` after event number `tick`
while `rd_empty = 1` (10_state.md R45; 93_implementation_defined.md U1). It has no body. -/
opaque freeRecord (w tick obs : Nat) : Record w

end Config

end Sys2Proof
end

