-- ==== Sys2Proof/Syntax.lean ====
section
/-! DEFINITION. The operations of the FIFO, one constructor per row of opcode_table.json, and the
events of its ports. -/

namespace Sys2Proof

/-- The operations a port vector selects (30_encoding.md R75, R85). Records are the numbers their `W`
bits stand for; `WellFormed.lean` bounds them. -/
inductive Instr where
  /-- PUSH: a `wr_clk` edge with `wr_en = 1`; `d` is `wr_data` (40_write_port.md R104). -/
  | push (d : Nat)
  /-- WIDLE: a `wr_clk` edge with `wr_en = 0`; `x` is the ignored `wr_data` (40_write_port.md R103). -/
  | widle (x : Nat)
  /-- POP: an `rd_clk` edge with `rd_en = 1` (41_read_port.md R124). -/
  | pop
  /-- RIDLE: an `rd_clk` edge with `rd_en = 0` (41_read_port.md R123). -/
  | ridle
  /-- RST_ASSERT: `rst` goes to 1 (70_reset_and_hazards.md R180). -/
  | rstAssert
  /-- RST_RELEASE: `rst` goes to 0 (70_reset_and_hazards.md R181). -/
  | rstRelease
deriving DecidableEq, Repr

/-- The three port-vector formats (30_encoding.md R72, R73, R74). -/
inductive Format where
  /-- `WPORT`: `wr_en` at bit `W`, `wr_data` at bits `W-1..0`. -/
  | wport
  /-- `RPORT`: `rd_en` at bit 0. -/
  | rport
  /-- `RST`: the level of `rst` at bit 0. -/
  | rst
deriving DecidableEq, Repr

/-- What one input wire carries. A model refuses an input that is neither 0 nor 1 (30_encoding.md
R71). -/
inductive Level where
  | zero
  | one
  /-- Neither 0 nor 1. -/
  | neither
deriving DecidableEq, Repr

/-- How the sampling draws of one clock edge are resolved (30_encoding.md R83). -/
inductive DrawSel where
  /-- No directive: every open draw takes either value (42_cdc_sync.md R142). -/
  | free
  /-- `@draw old`: every open draw takes `prev_L`. -/
  | old
  /-- `@draw new`: every open draw takes the current value. -/
  | new
deriving DecidableEq, Repr

/-- The host duties of one clock edge (70_reset_and_hazards.md R190; 42_cdc_sync.md R151). -/
inductive EdgeDuty where
  | met
  /-- An input changed within the setup/hold window of the edge (30_encoding.md R71). -/
  | setupHoldBroken
  /-- A metastable first stage was not resolved before stage 2 sampled it (42_cdc_sync.md R151). -/
  | unresolvedStage
deriving DecidableEq, Repr

/-- The host duty of one change of `rst` (70_reset_and_hazards.md R189). -/
inductive RstDuty where
  | met
  /-- A runt or glitching pulse. -/
  | runt
deriving DecidableEq, Repr

/-- One event at the ports (00_scope.md R14). A vector lists the levels of the port's wires, bit 0
first (00_scope.md R10). -/
inductive PinEvent where
  /-- A rising edge of `wr_clk` and the `WPORT` vector it samples. -/
  | wrEdge (vec : List Level) (duty : EdgeDuty) (draw : DrawSel)
  /-- A rising edge of `rd_clk` and the `RPORT` vector it samples. -/
  | rdEdge (vec : List Level) (duty : EdgeDuty) (draw : DrawSel)
  /-- The level that `rst` takes, as the `RST` vector. -/
  | rstLevel (vec : List Level) (duty : RstDuty)
deriving DecidableEq, Repr

/-- Why the decoder rejects an event. -/
inductive Reject where
  /-- The vector has not the width of its port (30_encoding.md R82). Safe: no port has such a vector. -/
  | vectorWidth
  /-- An input bit is neither 0 nor 1 (30_encoding.md R71). Safe: the spec asks a model to refuse. -/
  | inputNotBinary
  /-- A synchronous input changed within its setup/hold window (30_encoding.md R71,
  70_reset_and_hazards.md R190). Safe: the spec asks a model to refuse. -/
  | setupHold
  /-- A runt pulse on `rst` (70_reset_and_hazards.md R189). Safe: the spec asks a model to refuse. -/
  | runtPulse
  /-- A synchronizer failure (42_cdc_sync.md R151, 93_implementation_defined.md U5). The spec's model
  has no such run; unsafe against a chip in which it happens (log 11). -/
  | synchronizerFailure
deriving DecidableEq, Repr

end Sys2Proof
end

