-- ==== Sys2Proof/WellFormed.lean ====
section
/-! DEFINITION. What a well-formed operation and a well-formed port event are. -/

namespace Sys2Proof

/-- `wr_data` has `W` bits (30_encoding.md R72, R80); no other operation has an operand. -/
def Instr.wf (w : Nat) : Instr → Bool
  | .push d => decide (d < 2 ^ w)
  | .widle x => decide (x < 2 ^ w)
  | .pop => true
  | .ridle => true
  | .rstAssert => true
  | .rstRelease => true

/-- The width of a port vector: `WPORT` has `W + 1` bits, `RPORT` and `RST` one (30_encoding.md R82). -/
def Format.width (w : Nat) : Format → Nat
  | .wport => w + 1
  | .rport => 1
  | .rst => 1

/-- The wire carries 0 or 1 (30_encoding.md R71). -/
def Level.binary : Level → Bool
  | .zero => true
  | .one => true
  | .neither => false

/-- The port an event belongs to. -/
def PinEvent.format : PinEvent → Format
  | .wrEdge _ _ _ => .wport
  | .rdEdge _ _ _ => .rport
  | .rstLevel _ _ => .rst

/-- The vector an event carries. -/
def PinEvent.vec : PinEvent → List Level
  | .wrEdge v _ _ => v
  | .rdEdge v _ _ => v
  | .rstLevel v _ => v

/-- The host kept its duties at this event (70_reset_and_hazards.md R189, R190). -/
def PinEvent.dutyMet : PinEvent → Bool
  | .wrEdge _ d _ => d == .met
  | .rdEdge _ d _ => d == .met
  | .rstLevel _ d => d == .met

/-- An event the block can run: duties met, the port's width, every bit 0 or 1 (30_encoding.md R71,
R82). -/
def PinEvent.wf (w : Nat) (e : PinEvent) : Bool :=
  e.dutyMet && e.vec.length == e.format.width w && e.vec.all Level.binary

end Sys2Proof
end

