-- ==== Sys2Proof/Decode.lean ====
section
/-! DEFINITION. The decoder of port events and, after it, the encoder (30_encoding.md R72 to R75).
The decoder is total; what it rejects it rejects by name. -/

namespace Sys2Proof

/-- The levels of a vector as bits, or none where a wire is neither 0 nor 1. -/
def bitsOfLevels : List Level → Option (List Bool)
  | [] => some []
  | .zero :: r => (bitsOfLevels r).map (false :: ·)
  | .one :: r => (bitsOfLevels r).map (true :: ·)
  | .neither :: _ => none

/-- The unsigned number a list of bits stands for, bit 0 first (00_scope.md R10). -/
def natOfBits : List Bool → Nat
  | [] => 0
  | b :: r => b.toNat + 2 * natOfBits r

/-- The low `n` bits of a number, bit 0 first (00_scope.md R10). -/
def bitsOfNat : Nat → Nat → List Bool
  | 0, _ => []
  | n + 1, v => decide (v % 2 = 1) :: bitsOfNat n (v / 2)

/-- Bits as wire levels. -/
def levelOfBit (b : Bool) : Level := if b then .one else .zero

/-- The host duty an event breaks, if any. -/
def PinEvent.brokenDuty : PinEvent → Option Reject
  | .wrEdge _ .met _ => none
  | .rdEdge _ .met _ => none
  | .rstLevel _ .met => none
  | .wrEdge _ .setupHoldBroken _ => some .setupHold
  | .rdEdge _ .setupHoldBroken _ => some .setupHold
  | .wrEdge _ .unresolvedStage _ => some .synchronizerFailure
  | .rdEdge _ .unresolvedStage _ => some .synchronizerFailure
  | .rstLevel _ .runt => some .runtPulse

/-- The draw directive of an event (30_encoding.md R83); a change of `rst` samples nothing. -/
def PinEvent.drawSel : PinEvent → DrawSel
  | .wrEdge _ _ d => d
  | .rdEdge _ _ d => d
  | .rstLevel _ _ => .free

/-- The same event with another draw directive. -/
def PinEvent.withDraw (d : DrawSel) : PinEvent → PinEvent
  | .wrEdge v u _ => .wrEdge v u d
  | .rdEdge v u _ => .rdEdge v u d
  | .rstLevel v u => .rstLevel v u

/-- The operation a vector of bits selects on a port (30_encoding.md R72 to R75): bit `W` of `WPORT`
is `wr_en` and bits `W-1..0` are `wr_data`. -/
def decodeVector (w : Nat) (fmt : Format) (bits : List Bool) : Except Reject Instr :=
  if bits.length = fmt.width w then
    match fmt with
    | .wport =>
      if bits.getD w false then .ok (.push (natOfBits (bits.take w)))
      else .ok (.widle (natOfBits (bits.take w)))
    | .rport => if bits.getD 0 false then .ok .pop else .ok .ridle
    | .rst => if bits.getD 0 false then .ok .rstAssert else .ok .rstRelease
  else .error .vectorWidth

/-- The decoder: the operation an event selects in a block with records of `w` bits. An `RST` vector
that repeats the present level selects its operation too; that operation then has no effect
(70_reset_and_hazards.md R180: "asserting again while `rst = 1` is not an event"). -/
def decode (w : Nat) (e : PinEvent) : Except Reject Instr :=
  match e.brokenDuty with
  | some r => .error r
  | none =>
    match bitsOfLevels e.vec with
    | none => .error .inputNotBinary
    | some bits => decodeVector w e.format bits

/-! ### The encoder -/

/-- The port an operation is requested on (30_encoding.md R85). -/
def Instr.format : Instr → Format
  | .push _ => .wport
  | .widle _ => .wport
  | .pop => .rport
  | .ridle => .rport
  | .rstAssert => .rst
  | .rstRelease => .rst

/-- The bits of the vector that requests an operation, bit 0 first (30_encoding.md R72 to R74). -/
def encodeBits (w : Nat) : Instr → List Bool
  | .push d => bitsOfNat w d ++ [true]
  | .widle x => bitsOfNat w x ++ [false]
  | .pop => [true]
  | .ridle => [false]
  | .rstAssert => [true]
  | .rstRelease => [false]

/-- The event that carries a vector of bits on a port, with its duties met. -/
def eventOfBits (fmt : Format) (bits : List Bool) : PinEvent :=
  match fmt with
  | .wport => .wrEdge (bits.map levelOfBit) .met .free
  | .rport => .rdEdge (bits.map levelOfBit) .met .free
  | .rst => .rstLevel (bits.map levelOfBit) .met

/-- The encoder: the event that requests an operation. -/
def encode (w : Nat) (i : Instr) : PinEvent := eventOfBits i.format (encodeBits w i)

/-! ### The opcode table's words -/

/-- The port a table word of `nbits` bits stands on: 9 bits (two bytes) is `WPORT`, 1 bit (one byte)
is `RPORT`. The table's one-bit rows on `RST` have the same bits and the same width as those on
`RPORT`; a bare number cannot tell the two ports apart. DESIGN CHOICE (log 7): `RPORT`. -/
def tableFormat (nbits : Nat) : Option Format :=
  if nbits = 16 ∨ nbits = 9 then some .wport
  else if nbits = 8 ∨ nbits = 1 then some .rport
  else none

/-- The event whose port wires carry the low bits of a table word, in a block with records of `w`
bits. Bits above the port's width are padding to a whole byte and stand on no wire (log 7). -/
def tableEvent (w nbits word : Nat) : Option PinEvent :=
  (tableFormat nbits).map fun fmt => eventOfBits fmt (bitsOfNat (fmt.width w) word)

/-- The operation the decoder reads from a word of opcode_table.json, which is given for `W = 8`
(30_encoding.md R85). -/
def decodeTableWord (nbits w : Nat) : Option Instr :=
  (tableEvent 8 nbits w).bind fun e => (decode 8 e).toOption

end Sys2Proof
end

