-- ==== Sys2Proof/Machine/State.lean ====
section
/-! DEFINITION. The state of the machine, as plain data, and the state right after reset (10_state.md). -/

namespace Sys2Proof.Machine

open Sys2Proof

/-- A chain of `n` flip-flops: stage 1 first (42_cdc_sync.md R140). -/
structure Chain (α : Type) (n : Nat) where
  stages : List α
  len : stages.length = n
deriving DecidableEq, Repr

/-- A chain with one value in every stage. -/
def Chain.fill {α : Type} {n : Nat} (v : α) : Chain α n := ⟨List.replicate n v, List.length_replicate⟩

/-- The bookkeeping of one link: `prev_L` and `dirty_L` (10_state.md R35). -/
structure LinkBook (α : Type) where
  prev : α
  dirty : Bool
deriving DecidableEq, Repr

/-- The storage array as the list of its slots that do not hold 0: (slot, record), slots strictly
rising. The unit is the record (20_memory.md R51); with `W = 8` an entry is a `Host.Cell` (log 8). -/
abbrev Memory (w : Nat) := List (Nat × Record w)

/-- The registers clocked by `wr_clk` (10_state.md R22 to R27). -/
structure WriteDomain (p : Params) where
  /-- The write index (R22). -/
  wbin : Index p.AW
  /-- The write index in gray code (R23). -/
  wgray : Gray p.AW
  /-- The overrun latch (R24). -/
  ovf : Bool
  /-- The read-index synchronizer (R25). -/
  wsyncR : Chain (Gray p.AW) p.NS
  /-- The underrun-flag synchronizer (R26). -/
  wsyncU : Chain Bool p.NS
  /-- The write-domain reset synchronizer (R27). -/
  wrst : Chain Bool p.NS
deriving DecidableEq, Repr

/-- The registers clocked by `rd_clk` (10_state.md R28 to R33). -/
structure ReadDomain (p : Params) where
  /-- The read index (R28). -/
  rbin : Index p.AW
  /-- The underrun flag (R29). -/
  udf : Bool
  /-- The read index in gray code (R30). -/
  rgray : Gray p.AW
  /-- The write-index synchronizer (R31). -/
  rsyncW : Chain (Gray p.AW) p.NS
  /-- The overrun-flag synchronizer (R32). -/
  rsyncO : Chain Bool p.NS
  /-- The read-domain reset synchronizer (R33). -/
  rrst : Chain Bool p.NS
deriving DecidableEq, Repr

/-- The bookkeeping of the six links (10_state.md R35, 42_cdc_sync.md R140). -/
structure Links (p : Params) where
  wptr : LinkBook (Gray p.AW)
  ovf : LinkBook Bool
  rptr : LinkBook (Gray p.AW)
  udf : LinkBook Bool
  wRst : LinkBook Bool
  rRst : LinkBook Bool
deriving DecidableEq, Repr

/-- The block itself: its two domains, the shared storage, the link bookkeeping (10_state.md R21) and
the level of `rst` (30_encoding.md R74). -/
structure Fifo (p : Params) where
  rst : Bool
  wr : WriteDomain p
  rd : ReadDomain p
  storage : Memory p.W
  links : Links p
deriving DecidableEq, Repr

/-- The MODEL's own fields, no hardware: the environment's events and what the free values read. -/
structure Env where
  /-- The port events still to happen, oldest first (00_scope.md R14; log 6). -/
  pending : List PinEvent
  /-- The draw directive of the running edge (30_encoding.md R83; log 4). -/
  draw : DrawSel
  /-- How many events were taken; the free values read it (log 4, log 5). -/
  tick : Nat
deriving DecidableEq, Repr

/-- The whole machine: its parameters (fixed, 00_scope.md R9; log 1), the block and the environment. -/
structure State where
  cfg : Params
  fifo : Fifo cfg
  env : Env
deriving DecidableEq, Repr

/-- A fault stops the machine. The FIFO has none: "The FIFO raises no exception, trap or fault"
(60_exceptions.md R160), so the type has no constructor. -/
inductive Fault where
deriving DecidableEq, Repr

/-- Why a step has no meaning. -/
inductive Refusal where
  /-- Raised by no arm of `exec`: every operation has its meaning. Safe. -/
  | notModelled (mnemonic : String)
  /-- Raised by `step` for an event the decoder rejects (30_encoding.md R71, 70_reset_and_hazards.md
  R189, R190). Safe, but for `Reject.synchronizerFailure` (see there). -/
  | badEvent (why : Reject)
  /-- Raised by `execPush` for a record of more than `W` bits: no `WPORT` vector carries it
  (30_encoding.md R72). Safe: no step reaches it, since what the decoder gives is well formed. -/
  | recordTooWide
deriving DecidableEq, Repr

/-- The block right after the rise of `rst` that follows power-on: every register at its reset value
(70_reset_and_hazards.md R180), the link bookkeeping of 42_cdc_sync.md R145, storage as power-on left
it, 0 in every slot (R184; log 3), and `rst` still 1 (log 2). -/
def Fifo.reset (p : Params) : Fifo p where
  rst := true
  wr := {
    wbin := 0#p.AW, wgray := 0#p.AW, ovf := true
    wsyncR := Chain.fill 0#p.AW, wsyncU := Chain.fill false, wrst := Chain.fill true }
  rd := {
    rbin := 0#p.AW, udf := false, rgray := 0#p.AW
    rsyncW := Chain.fill 0#p.AW, rsyncO := Chain.fill true, rrst := Chain.fill true }
  storage := []
  links := {
    wptr := ⟨0#p.AW, false⟩, ovf := ⟨true, false⟩, rptr := ⟨0#p.AW, false⟩, udf := ⟨false, false⟩
    wRst := ⟨true, false⟩, rRst := ⟨true, false⟩ }

/-- The machine right after reset, for any parameters; no event is waiting (log 6). -/
def State.resetOf (p : Params) : State := ⟨p, Fifo.reset p, ⟨[], .free, 0⟩⟩

/-- The machine right after reset, with the parameters of the test vectors (log 1). -/
def State.reset : State := State.resetOf Config.testVectors

end Sys2Proof.Machine
end

