-- ==== Sys2Proof/Machine/Ops.lean ====
section
/-! DEFINITION. The named operations over storage, gray codes, synchronizer chains and registers that
the meanings are written with. Every right-hand side reads pre-edge values (00_scope.md R13). -/

namespace Sys2Proof.Machine

open Sys2Proof

/-! ### Storage (00_scope.md R12, 20_memory.md R50, R51) -/

/-- What a slot that is not listed holds: 0, the power-on value (70_reset_and_hazards.md R184). -/
def Memory.unlisted (w : Nat) : Record w := 0#w

/-- `MemRead(i)` (00_scope.md R12). -/
def Memory.read {w : Nat} : Memory w → Nat → Record w
  | [], _ => Memory.unlisted w
  | c :: r, i => if c.1 = i then c.2 else Memory.read r i

/-- The list without the entries of one slot. -/
def Memory.erase {w : Nat} (m : Memory w) (i : Nat) : Memory w := m.filter fun c => c.1 != i

/-- Puts an entry before the first entry of a higher slot. -/
def Memory.insert {w : Nat} : Memory w → Nat → Record w → Memory w
  | [], i, v => [(i, v)]
  | c :: r, i, v => if i < c.1 then (i, v) :: c :: r else c :: Memory.insert r i v

/-- `MemWrite(i, v)` (00_scope.md R12). Writing what an unlisted slot holds removes the entry. -/
def Memory.write {w : Nat} (m : Memory w) (i : Nat) (v : Record w) : Memory w :=
  if v = Memory.unlisted w then Memory.erase m i else Memory.insert (Memory.erase m i) i v

/-- The slots of the list rise strictly, from a lower bound on. -/
def Memory.risingFrom {w : Nat} : Nat → Memory w → Bool
  | _, [] => true
  | lo, c :: r => decide (lo ≤ c.1) && Memory.risingFrom (c.1 + 1) r

/-- The canonical form: slots strictly rising and below `slots`, no entry equal to what an unlisted
slot holds. -/
def Memory.wf {w : Nat} (slots : Nat) (m : Memory w) : Bool :=
  Memory.risingFrom 0 m && m.all fun c => decide (c.1 < slots) && c.2 != Memory.unlisted w

/-! ### Gray code (30_encoding.md R76, R77) -/

/-- `gray(b) = b ^ (b >> 1)` (30_encoding.md R76). -/
def gray {n : Nat} (b : Index n) : Gray n := b ^^^ (b >>> 1)

/-- The exclusive-or of `g >> 0`, …, `g >> (k-1)`. -/
def xorShifts {n : Nat} (g : Gray n) : Nat → Index n
  | 0 => 0#n
  | k + 1 => xorShifts g k ^^^ (g >>> k)

/-- `bin(g)`: bit `i` is the exclusive-or of `g[AW-1:i]` (30_encoding.md R77). -/
def bin {n : Nat} (g : Gray n) : Index n := xorShifts g n

/-! ### Chains and links (42_cdc_sync.md R141 to R143) -/

/-- Stage `k` of a chain, counted from 1 (42_cdc_sync.md R140). -/
def Chain.stage {α : Type} [Inhabited α] {n : Nat} (c : Chain α n) (k : Nat) : α :=
  c.stages.getD (k - 1) default

/-- Stage `NS`, the only stage that anything else reads (42_cdc_sync.md R141). -/
def Chain.last {α : Type} [Inhabited α] {n : Nat} (c : Chain α n) : α := c.stage n

/-- Stage 1 takes `v`; stage `k` takes stage `k-1` (42_cdc_sync.md R141). -/
def Chain.shift {α : Type} {n : Nat} (c : Chain α n) (v : α) : Chain α n :=
  ⟨(v :: c.stages).take n, by simp [c.len]⟩

/-- `Sample(L)` (42_cdc_sync.md R142): the current value of the source, or, where the source changed
since the last sample, a draw between that and `prev_L`. A directive fixes the draw (30_encoding.md
R83); without one it is the free value of link `L` at this edge (log 4). -/
def sample {α : Type} (e : Env) (l : Link) (b : LinkBook α) (cur : α) : α :=
  if b.dirty then
    match e.draw with
    | .old => b.prev
    | .new => cur
    | .free => if Config.freeDraw e.tick l then b.prev else cur
  else cur

/-- A sample clears `dirty_L` (42_cdc_sync.md R142). -/
def LinkBook.sampled {α : Type} (b : LinkBook α) : LinkBook α := { b with dirty := false }

/-- The source of a link goes from `a` to `v` (42_cdc_sync.md R143). -/
def LinkBook.changed {α : Type} [DecidableEq α] (b : LinkBook α) (a v : α) : LinkBook α :=
  if v = a then b else ⟨a, true⟩

/-- The bookkeeping of a link right after a rise of `rst` (42_cdc_sync.md R145). -/
def LinkBook.afterRise {α : Type} (cur : α) : LinkBook α := ⟨cur, false⟩

/-! ### The steps of each domain (42_cdc_sync.md R146, 40_write_port.md R101, 41_read_port.md R121) -/

section Steps
variable {p : Params}

/-- `SyncStepW()` (42_cdc_sync.md R146). -/
def syncStepW (e : Env) (f : Fifo p) : Fifo p :=
  { f with
    wr := { f.wr with
      wsyncR := f.wr.wsyncR.shift (sample e .rptr f.links.rptr f.rd.rgray)
      wsyncU := f.wr.wsyncU.shift (sample e .udf f.links.udf f.rd.udf) }
    links := { f.links with rptr := f.links.rptr.sampled, udf := f.links.udf.sampled } }

/-- `SyncStepR()` (42_cdc_sync.md R146). -/
def syncStepR (e : Env) (f : Fifo p) : Fifo p :=
  { f with
    rd := { f.rd with
      rsyncW := f.rd.rsyncW.shift (sample e .wptr f.links.wptr f.wr.wgray)
      rsyncO := f.rd.rsyncO.shift (sample e .ovf f.links.ovf f.wr.ovf) }
    links := { f.links with wptr := f.links.wptr.sampled, ovf := f.links.ovf.sampled } }

/-- `ResetReleaseStepW()` (40_write_port.md R101): `ovf` takes stage `NS-1`, the next value of
`w_in_reset`; its change marks `L_OVF` (42_cdc_sync.md R143). -/
def releaseStepW (e : Env) (f : Fifo p) : Fifo p :=
  { f with
    wr := { f.wr with
      wrst := f.wr.wrst.shift (sample e .wRst f.links.wRst f.rst)
      ovf := f.wr.wrst.stage (p.NS - 1) }
    links := { f.links with
      wRst := f.links.wRst.sampled
      ovf := f.links.ovf.changed f.wr.ovf (f.wr.wrst.stage (p.NS - 1)) } }

/-- `ResetReleaseStepR()` (41_read_port.md R121). -/
def releaseStepR (e : Env) (f : Fifo p) : Fifo p :=
  { f with
    rd := { f.rd with rrst := f.rd.rrst.shift (sample e .rRst f.links.rRst f.rst) }
    links := { f.links with rRst := f.links.rRst.sampled } }

/-! ### The effects of a push and of a pop -/

/-- The effect of an accepted push (40_write_port.md R104): the record is stored and the index
published at one edge (20_memory.md R55); `L_WPTR` is marked (42_cdc_sync.md R143). -/
def storeAndAdvance (d : Record p.W) (f : Fifo p) : Fifo p :=
  { f with
    storage := Memory.write f.storage f.wr.wbin.toNat d
    wr := { f.wr with wbin := f.wr.wbin + 1#p.AW, wgray := gray (f.wr.wbin + 1#p.AW) }
    links := { f.links with wptr := f.links.wptr.changed f.wr.wgray (gray (f.wr.wbin + 1#p.AW)) } }

/-- Entry into OVERRUN (40_write_port.md R105, 60_exceptions.md R170): only `ovf` changes; `L_OVF` is
marked. -/
def raiseOverrun (f : Fifo p) : Fifo p :=
  { f with
    wr := { f.wr with ovf := true }
    links := { f.links with ovf := f.links.ovf.changed f.wr.ovf true } }

/-- The effect of an accepted pop (41_read_port.md R124): the index advances and `udf` is cleared;
`L_RPTR` and `L_UDF` are marked where their sources change. -/
def consumeAndAdvance (f : Fifo p) : Fifo p :=
  { f with
    rd := { f.rd with udf := false, rbin := f.rd.rbin + 1#p.AW, rgray := gray (f.rd.rbin + 1#p.AW) }
    links := { f.links with
      rptr := f.links.rptr.changed f.rd.rgray (gray (f.rd.rbin + 1#p.AW))
      udf := f.links.udf.changed f.rd.udf false } }

/-- Entry into UNDERRUN (41_read_port.md R125, 60_exceptions.md R170): only `udf` changes; `L_UDF` is
marked where it changes. -/
def raiseUnderrun (f : Fifo p) : Fifo p :=
  { f with
    rd := { f.rd with udf := true }
    links := { f.links with udf := f.links.udf.changed f.rd.udf true } }

/-! ### Reset (70_reset_and_hazards.md R180, R181) -/

/-- A rise of `rst`: every register is forced to its reset value in both domains at once, storage is
unchanged (70_reset_and_hazards.md R180), and every link's bookkeeping starts again (42_cdc_sync.md
R145). -/
def forceReset (f : Fifo p) : Fifo p where
  rst := true
  wr := {
    wbin := 0#p.AW, wgray := 0#p.AW, ovf := true
    wsyncR := Chain.fill 0#p.AW, wsyncU := Chain.fill false, wrst := Chain.fill true }
  rd := {
    rbin := 0#p.AW, udf := false, rgray := 0#p.AW
    rsyncW := Chain.fill 0#p.AW, rsyncO := Chain.fill true, rrst := Chain.fill true }
  storage := f.storage
  links := {
    wptr := LinkBook.afterRise 0#p.AW, ovf := LinkBook.afterRise true
    rptr := LinkBook.afterRise 0#p.AW, udf := LinkBook.afterRise false
    wRst := LinkBook.afterRise true, rRst := LinkBook.afterRise true }

/-- A fall of `rst`: no register changes; both reset links see their source go from 1 to 0
(70_reset_and_hazards.md R181, 42_cdc_sync.md R143). -/
def dropReset (f : Fifo p) : Fifo p :=
  { f with
    rst := false
    links := { f.links with
      wRst := f.links.wRst.changed f.rst false
      rRst := f.links.rRst.changed f.rst false } }

end Steps

/-! ### Taking the next event (00_scope.md R14) -/

/-- The oldest waiting event, and the state in which it happens: the event taken from the queue, its
draw directive in force, the event counted (log 4, log 6). -/
def fetch (s : State) : Option (PinEvent × State) :=
  match s.env.pending with
  | [] => none
  | ev :: rest => some (ev, { s with env := ⟨rest, ev.drawSel, s.env.tick + 1⟩ })

/-- The state with a list of events waiting before those that wait already. -/
def State.withEvents (s : State) (evs : List PinEvent) : State :=
  { s with env := { s.env with pending := evs ++ s.env.pending } }

/-- The state with a table word as the next event at its port (log 6, log 7). -/
def State.withTableWord (s : State) (nbits w : Nat) : State :=
  s.withEvents (tableEvent s.cfg.W nbits w).toList

end Sys2Proof.Machine
end

