-- ==== Sys2Proof/Machine/Operands.lean ====
section
/-! DEFINITION. The derived signals the edge rules read (10_state.md R40 to R44, R47) and the outcome
an edge has (30_encoding.md R75). -/

namespace Sys2Proof.Machine

open Sys2Proof

section Views
variable {p : Params}

/-- `w_in_reset = wrst[NS]` (10_state.md R40). -/
def Fifo.wInReset (f : Fifo p) : Bool := f.wr.wrst.last

/-- `r_in_reset = rrst[NS]` (10_state.md R40). -/
def Fifo.rInReset (f : Fifo p) : Bool := f.rd.rrst.last

/-- `wq_rbin = bin(wsync_r[NS])`, the write domain's view of the read index (10_state.md R41). -/
def Fifo.wqRbin (f : Fifo p) : Index p.AW := bin f.wr.wsyncR.last

/-- `writable_w = (wq_rbin - wbin - 1) & MASK` (10_state.md R41). -/
def Fifo.writableW (f : Fifo p) : Index p.AW := f.wqRbin - f.wr.wbin - 1#p.AW

/-- `rq_wbin = bin(rsync_w[NS])`, the read domain's view of the write index (10_state.md R42). -/
def Fifo.rqWbin (f : Fifo p) : Index p.AW := bin f.rd.rsyncW.last

/-- `readable_r = (rq_wbin - rbin) & MASK` (10_state.md R42). -/
def Fifo.readableR (f : Fifo p) : Index p.AW := f.rqWbin - f.rd.rbin

/-- `wr_span = min(writable_w, C - wbin)` (10_state.md R44). -/
def Fifo.wrSpan (f : Fifo p) : Index p.AW :=
  BitVec.ofNat p.AW (min f.writableW.toNat (p.C - f.wr.wbin.toNat))

/-- `rd_span = min(readable_r, C - rbin)` (10_state.md R47). -/
def Fifo.rdSpan (f : Fifo p) : Index p.AW :=
  BitVec.ofNat p.AW (min f.readableR.toNat (p.C - f.rd.rbin.toNat))

/-- The true occupancy `L = (wbin - rbin) & MASK` (20_memory.md, notation). -/
def Fifo.occupancy (f : Fifo p) : Index p.AW := f.wr.wbin - f.rd.rbin

end Views

/-- What a `wr_clk` edge does (30_encoding.md R75, 60_exceptions.md R167). -/
inductive WriteCase where
  /-- `rst = 1`: nothing changes. -/
  | held
  /-- Write domain in reset: release step only. -/
  | releasing
  /-- `wr_en = 0`. -/
  | idle
  /-- `wr_en = 1`, `ovf = 1`. -/
  | rejectedLatched
  /-- `wr_en = 1`, `ovf = 0`, `writable_w = 0`. -/
  | rejectedFull
  /-- `wr_en = 1`, `ovf = 0`, `writable_w > 0`. -/
  | accepted
deriving DecidableEq, Repr

/-- What an `rd_clk` edge does (30_encoding.md R75, 60_exceptions.md R168). -/
inductive ReadCase where
  /-- `rst = 1`: nothing changes. -/
  | held
  /-- Read domain in reset: release step only. -/
  | releasing
  /-- `rd_en = 0`. -/
  | idle
  /-- `rd_en = 1`, `readable_r = 0`. -/
  | rejectedEmpty
  /-- `rd_en = 1`, `readable_r > 0`. -/
  | accepted
deriving DecidableEq, Repr

/-- The precedence within one `wr_clk` edge (40_write_port.md R100, 60_exceptions.md R167). -/
def Fifo.writeCase {p : Params} (f : Fifo p) (wrEn : Bool) : WriteCase :=
  if f.rst then .held
  else if f.wInReset then .releasing
  else if !wrEn then .idle
  else if f.wr.ovf then .rejectedLatched
  else if f.writableW = 0#p.AW then .rejectedFull
  else .accepted

/-- The precedence within one `rd_clk` edge (41_read_port.md R120, 60_exceptions.md R168). -/
def Fifo.readCase {p : Params} (f : Fifo p) (rdEn : Bool) : ReadCase :=
  if f.rst then .held
  else if f.rInReset then .releasing
  else if !rdEn then .idle
  else if f.readableR = 0#p.AW then .rejectedEmpty
  else .accepted

/-- The `wr_clk` edge (40_write_port.md R100): every case out of reset steps the synchronizers; the
case is chosen on pre-edge values (R102). -/
def writeEdge {p : Params} (e : Env) (f : Fifo p) (wrEn : Bool) (wrData : Record p.W) : Fifo p :=
  match f.writeCase wrEn with
  | .held => f
  | .releasing => releaseStepW e f
  | .idle => syncStepW e f
  | .rejectedLatched => syncStepW e f
  | .rejectedFull => raiseOverrun (syncStepW e f)
  | .accepted => storeAndAdvance wrData (syncStepW e f)

/-- The `rd_clk` edge (41_read_port.md R120): every case out of reset steps the synchronizers; the
case is chosen on pre-edge values (R122). -/
def readEdge {p : Params} (e : Env) (f : Fifo p) (rdEn : Bool) : Fifo p :=
  match f.readCase rdEn with
  | .held => f
  | .releasing => releaseStepR e f
  | .idle => syncStepR e f
  | .rejectedEmpty => raiseUnderrun (syncStepR e f)
  | .accepted => consumeAndAdvance (syncStepR e f)

end Sys2Proof.Machine
end

