-- ==== Sys2Proof/Machine/Flags.lean ====
section
/-! DEFINITION. The flags and the status outputs of the block: functions of the state, none of them
stored (10_state.md R40 to R47, 30_encoding.md R70, R80, R81, 60_exceptions.md R161). -/

namespace Sys2Proof.Machine

open Sys2Proof

section Flags
variable {p : Params}

/-- `wr_full = (writable_w == 0)` (10_state.md R41). -/
def Fifo.wrFull (f : Fifo p) : Bool := decide (f.writableW = 0#p.AW)

/-- `rd_empty = (readable_r == 0)` (10_state.md R42). -/
def Fifo.rdEmpty (f : Fifo p) : Bool := decide (f.readableR = 0#p.AW)

/-- `wr_overrun = ovf` (10_state.md R43). -/
def Fifo.wrOverrun (f : Fifo p) : Bool := f.wr.ovf

/-- `wr_ready = !wr_full & !ovf & !w_in_reset` (10_state.md R43). -/
def Fifo.wrReady (f : Fifo p) : Bool := !f.wrFull && !f.wr.ovf && !f.wInReset

/-- `rd_ready = !rd_empty & !r_in_reset` (10_state.md R47). -/
def Fifo.rdReady (f : Fifo p) : Bool := !f.rdEmpty && !f.rInReset

/-- `rd_underrun = udf` (10_state.md R46). -/
def Fifo.rdUnderrun (f : Fifo p) : Bool := f.rd.udf

/-- `rd_overrun = rsync_o[NS]` (10_state.md R46). -/
def Fifo.rdOverrun (f : Fifo p) : Bool := f.rd.rsyncO.last

/-- `wr_underrun = wsync_u[NS]` (10_state.md R46). -/
def Fifo.wrUnderrun (f : Fifo p) : Bool := f.wr.wsyncU.last

/-- `rd_data` at observation number `obs` (10_state.md R45): the head record, or, while
`rd_empty = 1`, a free value at each observation (log 5). -/
def Fifo.rdData (f : Fifo p) (e : Env) (obs : Nat) : Record p.W :=
  if f.rdEmpty then Config.freeRecord p.W e.tick obs
  else Memory.read f.storage f.rd.rbin.toNat

/-- `WSTATUS[3:0] = {wr_underrun, wr_overrun, wr_full, wr_ready}` (30_encoding.md R81). -/
def Fifo.wstatus (f : Fifo p) : BitVec 4 :=
  BitVec.ofBool f.wrUnderrun ++ BitVec.ofBool f.wrOverrun ++ BitVec.ofBool f.wrFull
    ++ BitVec.ofBool f.wrReady

/-- `RSTATUS[3:0] = {rd_overrun, rd_underrun, rd_empty, rd_ready}` (30_encoding.md R81). -/
def Fifo.rstatus (f : Fifo p) : BitVec 4 :=
  BitVec.ofBool f.rdOverrun ++ BitVec.ofBool f.rdUnderrun ++ BitVec.ofBool f.rdEmpty
    ++ BitVec.ofBool f.rdReady

/-- A reset is completed: both domains out of reset and `rd_overrun = 0` (70_reset_and_hazards.md
R183). -/
def Fifo.resetCompleted (f : Fifo p) : Bool := !f.wInReset && !f.rInReset && !f.rdOverrun

end Flags

/-- The output ports (30_encoding.md R70). -/
structure Outputs (p : Params) where
  wrReady : Bool
  wrFull : Bool
  wrCount : Index p.AW
  wrSpan : Index p.AW
  wrIndex : Index p.AW
  wrOverrun : Bool
  wrUnderrun : Bool
  rdData : Record p.W
  rdReady : Bool
  rdEmpty : Bool
  rdCount : Index p.AW
  rdSpan : Index p.AW
  rdIndex : Index p.AW
  rdUnderrun : Bool
  rdOverrun : Bool
deriving DecidableEq, Repr

/-- What the output ports show at observation number `obs`. Observing changes nothing
(20_memory.md R66). -/
def State.outputs (s : State) (obs : Nat) : Outputs s.cfg where
  wrReady := s.fifo.wrReady
  wrFull := s.fifo.wrFull
  wrCount := s.fifo.writableW
  wrSpan := s.fifo.wrSpan
  wrIndex := s.fifo.wr.wbin
  wrOverrun := s.fifo.wrOverrun
  wrUnderrun := s.fifo.wrUnderrun
  rdData := s.fifo.rdData s.env obs
  rdReady := s.fifo.rdReady
  rdEmpty := s.fifo.rdEmpty
  rdCount := s.fifo.readableR
  rdSpan := s.fifo.rdSpan
  rdIndex := s.fifo.rd.rbin
  rdUnderrun := s.fifo.rdUnderrun
  rdOverrun := s.fifo.rdOverrun

/-- The two error conditions (60_exceptions.md R161). -/
inductive Condition where
  | overrun
  | underrun
deriving DecidableEq, Repr

/-- The numbers the spec gives the conditions; no port carries them (60_exceptions.md R161). -/
def Condition.number : Condition → Nat
  | .overrun => 1
  | .underrun => 2

/-- The flag a condition is recorded in (60_exceptions.md R161). -/
def Fifo.recorded {p : Params} (f : Fifo p) : Condition → Bool
  | .overrun => f.wr.ovf
  | .underrun => f.rd.udf

end Sys2Proof.Machine
end

