-- ==== Sys2Proof/Machine/ReadPort.lean ====
section
/-! DEFINITION. The operations of the read port (41_read_port.md). -/

namespace Sys2Proof.Machine

open Sys2Proof

/-- POP (41_read_port.md R124, R125; during reset R121). -/
def execPop (s : State) : Host.Outcome State Fault Refusal :=
  .next { s with fifo := readEdge s.env s.fifo true }

/-- RIDLE (41_read_port.md R123; during reset R121). -/
def execRidle (s : State) : Host.Outcome State Fault Refusal :=
  .next { s with fifo := readEdge s.env s.fifo false }

end Sys2Proof.Machine
end

