-- ==== Sys2Proof/Machine/ResetPort.lean ====
section
/-! DEFINITION. The operations of the reset input (70_reset_and_hazards.md). -/

namespace Sys2Proof.Machine

open Sys2Proof

/-- RST_ASSERT (70_reset_and_hazards.md R180). With `rst` already 1 it is not an event (R180, R83). -/
def execRstAssert (s : State) : Host.Outcome State Fault Refusal :=
  if s.fifo.rst then .next s else .next { s with fifo := forceReset s.fifo }

/-- RST_RELEASE (70_reset_and_hazards.md R181). With `rst` already 0 it has no effect (30_encoding.md
R83). -/
def execRstRelease (s : State) : Host.Outcome State Fault Refusal :=
  if s.fifo.rst then .next { s with fifo := dropReset s.fifo } else .next s

end Sys2Proof.Machine
end

