-- ==== Sys2Proof/Machine/WritePort.lean ====
section
/-! DEFINITION. The operations of the write port (40_write_port.md). -/

namespace Sys2Proof.Machine

open Sys2Proof

/-- PUSH (40_write_port.md R104 to R106; during reset R101). A record of more than `W` bits is on no
port and is refused by name (log 9). -/
def execPush (d : Nat) (s : State) : Host.Outcome State Fault Refusal :=
  if d < 2 ^ s.cfg.W then
    .next { s with fifo := writeEdge s.env s.fifo true (BitVec.ofNat s.cfg.W d) }
  else .refused .recordTooWide

/-- WIDLE (40_write_port.md R103; during reset R101). `wr_data` is ignored. -/
def execWidle (x : Nat) (s : State) : Host.Outcome State Fault Refusal :=
  .next { s with fifo := writeEdge s.env s.fifo false (BitVec.ofNat s.cfg.W x) }

end Sys2Proof.Machine
end

