-- ==== Sys2Proof/Machine/Step.lean ====
section
/-! DEFINITION. One step of the machine: the oldest waiting event happens (00_scope.md R14). -/

namespace Sys2Proof.Machine

open Sys2Proof

/-- One step. The oldest waiting event is taken and decoded and its operation runs; with no event
waiting the block waits (70_reset_and_hazards.md R185; log 6). -/
def step (s : State) : Host.Outcome State Fault Refusal :=
  match fetch s with
  | none => .next s
  | some (ev, s') =>
    match decode s.cfg.W ev with
    | .error r => .refused (.badEvent r)
    | .ok i => exec i s'

/-- The state with an instruction of opcode_table.json as its next event (log 6, log 7). -/
def State.withFetchWord (s : State) (nbits w : Nat) : State := s.withTableWord nbits w

end Sys2Proof.Machine
end

