-- ==== Sys2Proof/Machine/Ports.lean ====
section
/-! DEFINITION. The tables of the spec that describe the block's shape: its ports (30_encoding.md
R70), its links (42_cdc_sync.md R140) and its agents (60_exceptions.md R173). -/

namespace Sys2Proof.Machine

open Sys2Proof

/-- The clock domain a port or register belongs to; `rst` is asynchronous (30_encoding.md R70). -/
inductive Domain where
  | write
  | read
  | asynchronous
deriving DecidableEq, Repr

/-- The direction of a port. -/
inductive Direction where
  | input
  | output
deriving DecidableEq, Repr

/-- The ports of the block, exactly these (30_encoding.md R70). -/
inductive PortName where
  | wrClk | wrEn | wrData | wrReady | wrFull | wrCount | wrSpan | wrIndex | wrOverrun | wrUnderrun
  | rdClk | rdEn | rdData | rdReady | rdEmpty | rdCount | rdSpan | rdIndex | rdUnderrun | rdOverrun
  | rst
deriving DecidableEq, Repr

/-- All ports, in the order of the table (30_encoding.md R70). -/
def PortName.all : List PortName :=
  [.wrClk, .wrEn, .wrData, .wrReady, .wrFull, .wrCount, .wrSpan, .wrIndex, .wrOverrun, .wrUnderrun,
   .rdClk, .rdEn, .rdData, .rdReady, .rdEmpty, .rdCount, .rdSpan, .rdIndex, .rdUnderrun, .rdOverrun,
   .rst]

/-- The direction of a port (30_encoding.md R70). -/
def PortName.direction : PortName → Direction
  | .wrClk | .wrEn | .wrData | .rdClk | .rdEn | .rst => .input
  | .wrReady | .wrFull | .wrCount | .wrSpan | .wrIndex | .wrOverrun | .wrUnderrun => .output
  | .rdData | .rdReady | .rdEmpty | .rdCount | .rdSpan | .rdIndex | .rdUnderrun | .rdOverrun => .output

/-- The domain of a port (30_encoding.md R70). -/
def PortName.domain : PortName → Domain
  | .wrClk | .wrEn | .wrData | .wrReady | .wrFull | .wrCount | .wrSpan | .wrIndex | .wrOverrun
  | .wrUnderrun => .write
  | .rdClk | .rdEn | .rdData | .rdReady | .rdEmpty | .rdCount | .rdSpan | .rdIndex | .rdUnderrun
  | .rdOverrun => .read
  | .rst => .asynchronous

/-- The width of a port (30_encoding.md R70, R80). -/
def PortName.width (p : Params) : PortName → Nat
  | .wrData | .rdData => p.W
  | .wrCount | .wrSpan | .wrIndex | .rdCount | .rdSpan | .rdIndex => p.AW
  | .wrClk | .wrEn | .wrReady | .wrFull | .wrOverrun | .wrUnderrun => 1
  | .rdClk | .rdEn | .rdReady | .rdEmpty | .rdUnderrun | .rdOverrun | .rst => 1

/-- All links, in the order of the table (42_cdc_sync.md R140). -/
def linkTable : List Link := [.wptr, .ovf, .rptr, .udf, .wRst, .rRst]

/-- The domain a link's source is clocked in (42_cdc_sync.md R140). -/
def linkSource : Link → Domain
  | .wptr | .ovf => .write
  | .rptr | .udf => .read
  | .wRst | .rRst => .asynchronous

/-- The domain a link's chain is clocked in (42_cdc_sync.md R140). -/
def linkDestination : Link → Domain
  | .wptr | .ovf | .rRst => .read
  | .rptr | .udf | .wRst => .write

/-- The width of a link's source (42_cdc_sync.md R140). -/
def linkWidth (p : Params) : Link → Nat
  | .wptr | .rptr => p.AW
  | .ovf | .udf | .wRst | .rRst => 1

/-- The three agents (60_exceptions.md R173). -/
inductive Agent where
  | writeDomain
  | readDomain
  | resetDriver
deriving DecidableEq, Repr

/-- The agent whose step an event is (60_exceptions.md R173). -/
def agentOf : Format → Agent
  | .wport => .writeDomain
  | .rport => .readDomain
  | .rst => .resetDriver

/-- An output port's value as a number (30_encoding.md R70, R80); an input port has none. -/
def Outputs.value {p : Params} (o : Outputs p) : PortName → Option Nat
  | .wrReady => some o.wrReady.toNat
  | .wrFull => some o.wrFull.toNat
  | .wrCount => some o.wrCount.toNat
  | .wrSpan => some o.wrSpan.toNat
  | .wrIndex => some o.wrIndex.toNat
  | .wrOverrun => some o.wrOverrun.toNat
  | .wrUnderrun => some o.wrUnderrun.toNat
  | .rdData => some o.rdData.toNat
  | .rdReady => some o.rdReady.toNat
  | .rdEmpty => some o.rdEmpty.toNat
  | .rdCount => some o.rdCount.toNat
  | .rdSpan => some o.rdSpan.toNat
  | .rdIndex => some o.rdIndex.toNat
  | .rdUnderrun => some o.rdUnderrun.toNat
  | .rdOverrun => some o.rdOverrun.toNat
  | .wrClk => none
  | .wrEn => none
  | .wrData => none
  | .rdClk => none
  | .rdEn => none
  | .rst => none

end Sys2Proof.Machine
end

