-- ==== Sys2Proof/Machine/Stimulus.lean ====
section
/-! DEFINITION. The stimulus syntax of 30_encoding.md R83 and R84: lines, pseudo-operations, their
expansion into port events, and a reader of their text. It is the "assembler" of this block, not
hardware (92_eei_decisions.md D22). -/

namespace Sys2Proof.Machine

open Sys2Proof

/-- One line of a stimulus program: one event (30_encoding.md R83). -/
structure StimLine where
  op : Instr
  draw : DrawSel
deriving DecidableEq, Repr

/-- The event a line stands for, in a block with records of `w` bits (30_encoding.md R83). -/
def StimLine.event (w : Nat) (l : StimLine) : PinEvent := (encode w l.op).withDraw l.draw

/-- A line without a directive. -/
def plainLine (i : Instr) : StimLine := ⟨i, .free⟩

/-- A line or a pseudo-operation (30_encoding.md R84). -/
inductive Stim where
  | line (l : StimLine)
  | write (ds : List Nat)
  | read (n : Nat)
  | widle (n : Nat)
  | ridle (n : Nat)
  | settle
  | reset
deriving DecidableEq, Repr

/-- `n` lines of one operation. -/
def repeatLine (n : Nat) (i : Instr) : List StimLine := List.replicate n (plainLine i)

/-- `NS + 1` idle edges in each domain, write domain first (30_encoding.md R84). -/
def idleBoth (p : Params) : List StimLine :=
  repeatLine (p.NS + 1) (.widle 0) ++ repeatLine (p.NS + 1) .ridle

/-- The expansions (30_encoding.md R84). -/
def Stim.lines (p : Params) : Stim → List StimLine
  | .line l => [l]
  | .write ds => ds.map fun d => plainLine (.push d)
  | .read n => repeatLine n .pop
  | .widle n => repeatLine n (.widle 0)
  | .ridle n => repeatLine n .ridle
  | .settle => idleBoth p
  | .reset => plainLine .rstAssert :: plainLine .rstRelease :: idleBoth p

/-- The events of a program, in order (30_encoding.md R83). -/
def stimEvents (p : Params) (prog : List Stim) : List PinEvent :=
  (prog.flatMap (Stim.lines p)).map (StimLine.event p.W)

/-- The state with a program's events waiting. -/
def State.withProgram (s : State) (prog : List Stim) : State := s.withEvents (stimEvents s.cfg prog)

/-! ### The text (log 12) -/

/-- The value of a digit in base 16. -/
def digitValue (c : Char) : Option Nat :=
  let n := c.toNat
  if 48 ≤ n ∧ n ≤ 57 then some (n - 48)
  else if 97 ≤ n ∧ n ≤ 102 then some (n - 87)
  else if 65 ≤ n ∧ n ≤ 70 then some (n - 55)
  else none

/-- Digits in a base, most significant first, after an accumulator. -/
def readDigits (base : Nat) : Nat → List Char → Option Nat
  | acc, [] => some acc
  | acc, c :: r =>
    match digitValue c with
    | some v => if v < base then readDigits base (acc * base + v) r else none
    | none => none

/-- A number: hexadecimal with prefix `0x`, or decimal (30_encoding.md R83). -/
def readNumber : List Char → Option Nat
  | [] => none
  | ['0', 'x'] => none
  | '0' :: 'x' :: c :: r => readDigits 16 0 (c :: r)
  | c :: r => readDigits 10 0 (c :: r)

/-- A `W`-bit value (30_encoding.md R83). -/
def readRecord (w : Nat) (t : List Char) : Option Nat :=
  match readNumber t with
  | some d => if d < 2 ^ w then some d else none
  | none => none

/-- Every token as a `W`-bit value. -/
def readRecords (w : Nat) : List (List Char) → Option (List Nat)
  | [] => some []
  | t :: r =>
    match readRecord w t, readRecords w r with
    | some d, some ds => some (d :: ds)
    | _, _ => none

/-- The text before a comment (30_encoding.md R83). -/
def dropComment : List Char → List Char
  | [] => []
  | ';' :: _ => []
  | c :: r => c :: dropComment r

/-- The words of a line; `cur` is the word that is being read, backwards. -/
def tokensFrom : List Char → List Char → List (List Char)
  | cur, [] => if cur.isEmpty then [] else [cur.reverse]
  | cur, c :: r =>
    if c = ' ' ∨ c = '\t' then
      if cur.isEmpty then tokensFrom [] r else cur.reverse :: tokensFrom [] r
    else tokensFrom (c :: cur) r

/-- The words of a line, its comment left out. -/
def tokens (l : List Char) : List (List Char) := tokensFrom [] (dropComment l)

/-- The directive after a `W` or `R` line (30_encoding.md R83). -/
def readDirective : List (List Char) → Option DrawSel
  | [] => some .free
  | [['@', 'd', 'r', 'a', 'w'], ['o', 'l', 'd']] => some .old
  | [['@', 'd', 'r', 'a', 'w'], ['n', 'e', 'w']] => some .new
  | _ => none

/-- A line with its directive. -/
def withDirective (i : Instr) (r : List (List Char)) : Option Stim :=
  (readDirective r).map fun d => .line ⟨i, d⟩

/-- The line or pseudo-operation that the words of one line spell, if any (30_encoding.md R83, R84).
DESIGN CHOICE (log 12): the spec gives no number form for the count `n` of READ, WIDLE and RIDLE; it is
read as R83's `<d>` is, in decimal or in hexadecimal with prefix `0x`, and is any natural number. -/
def readTokens (w : Nat) : List (List Char) → Option Stim
  | ['W'] :: ['-'] :: r => withDirective (.widle 0) r
  | ['W'] :: t :: r => (readRecord w t).bind fun d => withDirective (.push d) r
  | ['R'] :: ['+'] :: r => withDirective .pop r
  | ['R'] :: ['-'] :: r => withDirective .ridle r
  | [['R', 'S', 'T'], ['1']] => some (.line (plainLine .rstAssert))
  | [['R', 'S', 'T'], ['0']] => some (.line (plainLine .rstRelease))
  | ['W', 'R', 'I', 'T', 'E'] :: t :: r => (readRecords w (t :: r)).map .write
  | [['R', 'E', 'A', 'D'], n] => (readNumber n).map .read
  | [['W', 'I', 'D', 'L', 'E'], n] => (readNumber n).map .widle
  | [['R', 'I', 'D', 'L', 'E'], n] => (readNumber n).map .ridle
  | [['S', 'E', 'T', 'T', 'L', 'E']] => some .settle
  | [['R', 'E', 'S', 'E', 'T']] => some .reset
  | _ => none

/-- A program from its lines; a line without words is skipped, a line that spells nothing is refused. -/
def readProgram (w : Nat) : List (List Char) → Option (List Stim)
  | [] => some []
  | l :: r =>
    if (tokens l).isEmpty then readProgram w r
    else
      match readTokens w (tokens l), readProgram w r with
      | some s, some ss => some (s :: ss)
      | _, _ => none

end Sys2Proof.Machine
end

