-- ==== Sys2Proof/Safety.lean ====
section
/-! DEFINITION. What counts as a safe state and a correct run, in the terms the statements use: the
invariants of 10_state.md R36, 20_memory.md R58 to R63, 42_cdc_sync.md R147 and R149, the settled state
(20_memory.md R61), the queue the block stands for, and the record of a run (20_memory.md R62). -/

namespace Sys2Proof.Machine

open Sys2Proof

section Predicates
variable {p : Params}

/-! ### What a sample and a source change may do (42_cdc_sync.md R141 to R143) -/

/-- The values a sample may take: the current one, or `prev_L` where the link is dirty
(42_cdc_sync.md R142). -/
def SampleAllowed {α : Type} (b : LinkBook α) (cur v : α) : Prop :=
  v = cur ∨ (b.dirty = true ∧ v = b.prev)

/-- A chain was stepped: stage 1 took an allowed sample, stage `k` the old stage `k-1`
(42_cdc_sync.md R141). -/
def ChainTook {α : Type} {n : Nat} (b : LinkBook α) (cur : α) (c c' : Chain α n) : Prop :=
  ∃ v, SampleAllowed b cur v ∧ c'.stages = v :: c.stages.dropLast

/-- A link's bookkeeping over an event in which its source went from `a` to `a'`, with no sample of the
link (42_cdc_sync.md R143). -/
def LinkMarked {α : Type} (b b' : LinkBook α) (a a' : α) : Prop :=
  (a' ≠ a → b' = ⟨a, true⟩) ∧ (a' = a → b' = b)

/-- The write domain's chains were stepped from `f` to `g` and their links sampled: `SyncStepW()`
(42_cdc_sync.md R146). -/
def SteppedW (f g : Fifo p) : Prop :=
  ChainTook f.links.rptr f.rd.rgray f.wr.wsyncR g.wr.wsyncR ∧
  ChainTook f.links.udf f.rd.udf f.wr.wsyncU g.wr.wsyncU ∧
  g.links.rptr = ⟨f.links.rptr.prev, false⟩ ∧ g.links.udf = ⟨f.links.udf.prev, false⟩

/-- The read domain's chains were stepped from `f` to `g` and their links sampled: `SyncStepR()`
(42_cdc_sync.md R146). -/
def SteppedR (f g : Fifo p) : Prop :=
  ChainTook f.links.wptr f.wr.wgray f.rd.rsyncW g.rd.rsyncW ∧
  ChainTook f.links.ovf f.wr.ovf f.rd.rsyncO g.rd.rsyncO ∧
  g.links.wptr = ⟨f.links.wptr.prev, false⟩ ∧ g.links.ovf = ⟨f.links.ovf.prev, false⟩

/-- The reset input and both reset links are as before. -/
def SameReset (f g : Fifo p) : Prop :=
  g.rst = f.rst ∧ g.links.wRst = f.links.wRst ∧ g.links.rRst = f.links.rRst

/-- Every slot reads as before. -/
def SameStorage (f g : Fifo p) : Prop := ∀ a, Memory.read g.storage a = Memory.read f.storage a

/-- The conditions of an accepted push (30_encoding.md R75, 40_write_port.md R104). -/
abbrev PushAccepted (f : Fifo p) : Prop :=
  f.rst = false ∧ f.wInReset = false ∧ f.wr.ovf = false ∧ f.writableW ≠ 0#p.AW

/-- The conditions of an accepted pop (30_encoding.md R75, 41_read_port.md R124). -/
abbrev PopAccepted (f : Fifo p) : Prop :=
  f.rst = false ∧ f.rInReset = false ∧ f.readableR ≠ 0#p.AW

/-- Two words differ in exactly one bit (30_encoding.md R79). -/
def DifferInOneBit {n : Nat} (a b : BitVec n) : Prop :=
  ∃ i, i < n ∧ ∀ j, j < n → (a.getLsbD j ≠ b.getLsbD j ↔ j = i)

/-! ### Invariants -/

/-- The invariants of the state (10_state.md R36). -/
structure DomainInv (f : Fifo p) : Prop where
  wgray_eq : f.wr.wgray = gray f.wr.wbin
  rgray_eq : f.rd.rgray = gray f.rd.rbin
  ovf_in_reset : f.wInReset = true → f.wr.ovf = true
  rd_overrun_in_reset : f.rInReset = true → f.rd.rsyncO.last = true
  write_cleared : f.wInReset = true →
    f.wr.wbin = 0#p.AW ∧ f.wr.wgray = 0#p.AW ∧ f.wr.wsyncR = Chain.fill 0#p.AW
  read_cleared : f.rInReset = true →
    f.rd.rbin = 0#p.AW ∧ f.rd.rgray = 0#p.AW ∧ f.rd.rsyncW = Chain.fill 0#p.AW

/-- One reset synchronizer (42_cdc_sync.md R147): all 1 while `rst = 1` and until its first sample of
the fall; its ones leave at the far end, so that once stage `NS` is 0 every stage is 0. -/
structure ResetChainInv (rst : Bool) (b : LinkBook Bool) (c : Chain Bool p.NS) : Prop where
  held : rst = true → c = Chain.fill true
  unsampled : b.dirty = true → c = Chain.fill true
  ones_last : c.stages.Pairwise fun newer older => newer = true → older = true

/-- Both reset synchronizers. -/
def ResetInv (f : Fifo p) : Prop :=
  ResetChainInv (p := p) f.rst f.links.wRst f.wr.wrst ∧
  ResetChainInv (p := p) f.rst f.links.rRst f.rd.rrst

/-- What a link knows of its source, newest first: the source, `prev_L` while dirty, the stages. -/
def linkHistory {α : Type} {n : Nat} (cur : α) (b : LinkBook α) (c : Chain α n) : List α :=
  cur :: ((if b.dirty then [b.prev] else []) ++ c.stages)

/-- How many records lie between `rbin` and a write index in gray code. -/
def aheadOfRead (f : Fifo p) (g : Gray p.AW) : Nat := (bin g - f.rd.rbin).toNat

/-- How many slots lie between a read index in gray code and `wbin`. -/
def behindWrite (f : Fifo p) (g : Gray p.AW) : Nat := (f.wr.wbin - bin g).toNat

/-- Ordered views (20_memory.md R59, R60; 42_cdc_sync.md R149): along the write-index link an older
value is never further ahead of `rbin`, along the read-index link an older value is never nearer to
`wbin`. -/
def OrderInv (f : Fifo p) : Prop :=
  (linkHistory f.wr.wgray f.links.wptr f.rd.rsyncW).Pairwise
    (fun newer older => aheadOfRead f older ≤ aheadOfRead f newer) ∧
  (linkHistory f.rd.rgray f.links.rptr f.wr.wsyncR).Pairwise
    (fun newer older => behindWrite f newer ≤ behindWrite f older)

/-- The storage list is in canonical form (log 8). -/
def StorageInv (f : Fifo p) : Prop := Memory.wf p.C f.storage = true

/-- What holds of every state after the first reset. -/
structure Inv (f : Fifo p) : Prop where
  domain : DomainInv f
  reset : ResetInv f
  order : OrderInv f
  storage : StorageInv f

/-- Power-on (70_reset_and_hazards.md R184): every slot of storage is 0; every register and the level
of `rst` may be anything (log 10). -/
def AtPowerOn (f : Fifo p) : Prop := f.storage = []

/-! ### Settled states -/

/-- Every stage holds its source's value and no reset is in progress (20_memory.md R61). -/
structure Settled (f : Fifo p) : Prop where
  rst_low : f.rst = false
  write_out : f.wInReset = false
  read_out : f.rInReset = false
  rsyncW_eq : f.rd.rsyncW = Chain.fill f.wr.wgray
  rsyncO_eq : f.rd.rsyncO = Chain.fill f.wr.ovf
  wsyncR_eq : f.wr.wsyncR = Chain.fill f.rd.rgray
  wsyncU_eq : f.wr.wsyncU = Chain.fill f.rd.udf

/-- No link has an open draw. -/
def NoOpenDraw (f : Fifo p) : Prop :=
  f.links.wptr.dirty = false ∧ f.links.ovf.dirty = false ∧ f.links.rptr.dirty = false ∧
  f.links.udf.dirty = false ∧ f.links.wRst.dirty = false ∧ f.links.rRst.dirty = false

/-- The settled empty state `S0` of 95_test_vectors.md section 0; storage may hold anything. -/
structure IsS0 (f : Fifo p) : Prop where
  settled : Settled f
  wbin_zero : f.wr.wbin = 0#p.AW
  wgray_zero : f.wr.wgray = 0#p.AW
  ovf_clear : f.wr.ovf = false
  rbin_zero : f.rd.rbin = 0#p.AW
  rgray_zero : f.rd.rgray = 0#p.AW
  udf_clear : f.rd.udf = false
  wrst_clear : f.wr.wrst = Chain.fill false
  rrst_clear : f.rd.rrst = Chain.fill false
  no_open_draw : NoOpenDraw f

/-! ### The queue the block stands for -/

/-- The unread records, oldest first: slots `rbin`, `rbin + 1`, …, `L` of them (20_memory.md R58). -/
def contents (f : Fifo p) : List (Record p.W) :=
  (List.range f.occupancy.toNat).map fun k =>
    Memory.read f.storage (f.rd.rbin + BitVec.ofNat p.AW k).toNat

end Predicates

/-! ### Runs (00_scope.md R14) -/

/-- `k` steps of the machine, stopping at the first refusal. -/
def run : Nat → State → Host.Outcome State Fault Refusal
  | 0, s => .next s
  | k + 1, s =>
    match step s with
    | .next t => run k t
    | .fault r => .fault r
    | .refused r => .refused r

/-- The events of stimulus lines. -/
def lineEvents (p : Params) (ls : List StimLine) : List PinEvent := ls.map (StimLine.event p.W)

/-- Idle `wr_clk` edges, one for each draw directive. -/
def idleW (ds : List DrawSel) : List StimLine := ds.map fun d => ⟨.widle 0, d⟩

/-- Idle `rd_clk` edges, one for each draw directive. -/
def idleR (ds : List DrawSel) : List StimLine := ds.map fun d => ⟨.ridle, d⟩

/-- The operation the next step runs, if an event waits and the decoder accepts it. -/
def nextInstr (s : State) : Option Instr :=
  s.env.pending.head?.bind fun ev => (decode s.cfg.W ev).toOption

/-- The record the next step accepts as a push, if any. -/
def pushedNext (s : State) : List Nat :=
  match nextInstr s with
  | some (.push d) => if PushAccepted s.fifo then [d] else []
  | _ => []

/-- The record the next step hands to the consumer, if any: `rd_data` just before the edge of an
accepted pop (20_memory.md R62). -/
def poppedNext (s : State) : List Nat :=
  match nextInstr s with
  | some .pop => if PopAccepted s.fifo then [(s.fifo.rdData s.env 0).toNat] else []
  | _ => []

/-- The next step is a rise of `rst`. -/
def risesNext (s : State) : Bool := nextInstr s == some .rstAssert && !s.fifo.rst

/-- The records accepted in `k` steps, in order. -/
def pushedIn : Nat → State → List Nat
  | 0, _ => []
  | k + 1, s =>
    match step s with
    | .next t => pushedNext s ++ pushedIn k t
    | .fault _ => []
    | .refused _ => []

/-- The records handed to the consumer in `k` steps, in order. -/
def poppedIn : Nat → State → List Nat
  | 0, _ => []
  | k + 1, s =>
    match step s with
    | .next t => poppedNext s ++ poppedIn k t
    | .fault _ => []
    | .refused _ => []

/-- `rst` rises in none of the `k` steps. -/
def noRiseIn : Nat → State → Bool
  | 0, _ => true
  | k + 1, s =>
    match step s with
    | .next t => !risesNext s && noRiseIn k t
    | .fault _ => true
    | .refused _ => true

/-- The contents of the machine as numbers. -/
def State.queue (s : State) : List Nat := (contents s.fifo).map BitVec.toNat

end Sys2Proof.Machine
end

