-- ==== Sys2Proof/Certificates/Slice0/Obligations.lean ====
section
/-! DEFINITION. The statements about the machine, one `Obligations.<Name>` each. A state of the
machine is written `⟨p, f, e⟩`: its parameters, the block, the environment. Every statement holds for
every choice of the parameters and of the free values. -/

open Sys2Proof Sys2Proof.Machine

/-! ## Encoding -/

/-- Words written out bit by bit (bit 0 first) from 30_encoding.md R72 to R74 for `W = 8`; the vectors
of 95_test_vectors.md V-ENC-1. -/
def Obligations.DecoderReadsWrittenWords : Prop :=
  decode 8 (.wrEdge [.one, .zero, .zero, .zero, .zero, .zero, .one, .zero, .one] .met .free)
    = .ok (.push 0x41) ∧
  decode 8 (.wrEdge [.zero, .zero, .zero, .zero, .zero, .zero, .zero, .zero, .one] .met .free)
    = .ok (.push 0x00) ∧
  decode 8 (.wrEdge [.one, .one, .one, .one, .one, .one, .one, .one, .zero] .met .free)
    = .ok (.widle 0xFF) ∧
  decode 8 (.rdEdge [.one] .met .free) = .ok .pop ∧
  decode 8 (.rdEdge [.zero] .met .free) = .ok .ridle ∧
  decode 8 (.rstLevel [.one] .met) = .ok .rstAssert ∧
  decode 8 (.rstLevel [.zero] .met) = .ok .rstRelease

/-- Decode and encode agree, for every record width, operation and draw directive (R72 to R74). -/
def Obligations.DecodeOfEncodeIsTheOperation : Prop :=
  ∀ (w : Nat) (i : Instr) (ds : DrawSel), i.wf w = true →
    PinEvent.wf w ((encode w i).withDraw ds) = true ∧
    decode w ((encode w i).withDraw ds) = .ok i

/-- 30_encoding.md R71: every vector of 0s and 1s has a meaning, none is reserved (and it is the vector
of that meaning); an input that is neither 0 nor 1, and a synchronous input that changes in the
setup/hold window, are refused. Two clauses rest on the model's DESIGN CHOICES (log 9): every vector is
the encoding of its meaning because WIDLE carries the `wr_data` it ignores, and an event with several
faults is refused under the name the order of the checks gives it. -/
def Obligations.EveryBinaryVectorHasAMeaning : Prop :=
  (∀ (w : Nat) (ev : PinEvent), ev.wf w = true →
    ∃ i, decode w ev = .ok i ∧ i.wf w = true ∧ i.format = ev.format ∧
      (encode w i).withDraw ev.drawSel = ev) ∧
  (∀ (w : Nat) (ev : PinEvent), ev.dutyMet = true → Level.neither ∈ ev.vec →
    decode w ev = .error .inputNotBinary) ∧
  (∀ (w : Nat) (vec : List Level) (ds : DrawSel),
    decode w (.wrEdge vec .setupHoldBroken ds) = .error .setupHold ∧
    decode w (.rdEdge vec .setupHoldBroken ds) = .error .setupHold)

/-! ## The step -/

/-- A step runs the decoded operation of the oldest event (00_scope.md R14), and adds around it only
the environment's own fields (log 4, log 6): the event leaves the queue, its draw directive is in
force, the event is counted. -/
def Obligations.StepRunsDecodedOperation : Prop :=
  ∀ (p : Params) (f : Fifo p) (ev : PinEvent) (rest : List PinEvent) (ds : DrawSel) (tick : Nat)
    (i : Instr), decode p.W ev = .ok i →
    step ⟨p, f, ⟨ev :: rest, ds, tick⟩⟩ = exec i ⟨p, f, ⟨rest, ev.drawSel, tick + 1⟩⟩

/-- With no event the block waits (70_reset_and_hazards.md R185; the queue is the model's own, log 6). An
event the decoder rejects is refused by that name (30_encoding.md R71), a runt pulse on `rst` among
them (70_reset_and_hazards.md R189). -/
def Obligations.StepWaitsAndRefusesBadEvents : Prop :=
  (∀ (p : Params) (f : Fifo p) (ds : DrawSel) (tick : Nat),
    step ⟨p, f, ⟨[], ds, tick⟩⟩ = .next ⟨p, f, ⟨[], ds, tick⟩⟩) ∧
  (∀ (p : Params) (f : Fifo p) (ev : PinEvent) (rest : List PinEvent) (ds : DrawSel) (tick : Nat)
    (r : Reject), decode p.W ev = .error r →
    step ⟨p, f, ⟨ev :: rest, ds, tick⟩⟩ = .refused (.badEvent r)) ∧
  (∀ (w : Nat) (vec : List Level), decode w (.rstLevel vec .runt) = .error .runtPulse)

/-- 60_exceptions.md R160, 30_encoding.md R71: every well-formed operation completes in every state,
and neither the parameters nor the environment change. -/
def Obligations.EveryOperationCompletes : Prop :=
  ∀ (p : Params) (f : Fifo p) (e : Env) (i : Instr), i.wf p.W = true →
    ∃ g : Fifo p, exec i ⟨p, f, e⟩ = .next ⟨p, g, e⟩

/-- A record of more than `W` bits is on no port; the meaning refuses it by name (the model's choice,
log 9), and no step reaches that refusal, because what the decoder gives is well formed. -/
def Obligations.TooWideRecordIsRefusedAndNeverFetched : Prop :=
  (∀ (p : Params) (f : Fifo p) (e : Env) (d : Nat), 2 ^ p.W ≤ d →
    exec (.push d) ⟨p, f, e⟩ = .refused .recordTooWide) ∧
  (∀ s : State, ∀ t, step s ≠ .refused .recordTooWide ∧ (step s = .next t → t.cfg = s.cfg))

/-- 00_scope.md R9: a configuration is constructed exactly when `W ≥ 1`, `AW ≥ 1` and `NS ≥ 2`, with
those values; every other one is refused. -/
def Obligations.ConstructionRefusesBadParameters : Prop :=
  ∀ w aw ns : Nat,
    ((1 ≤ w ∧ 1 ≤ aw ∧ 2 ≤ ns) →
      ∃ p, Params.construct w aw ns = .ok p ∧ p.W = w ∧ p.AW = aw ∧ p.NS = ns) ∧
    (¬ (1 ≤ w ∧ 1 ≤ aw ∧ 2 ≤ ns) → ∃ r, Params.construct w aw ns = .error r)

/-! ## Reset -/

/-- 70_reset_and_hazards.md R180 and 42_cdc_sync.md R145: a rise of `rst` forces every register of both
domains, leaves storage alone and restarts the bookkeeping of every link; while `rst = 1` every edge
changes nothing and asserting again is not an event. -/
def Obligations.RiseOfRstForcesResetValues : Prop :=
  (∀ (p : Params) (f : Fifo p) (e : Env), f.rst = false →
    ∃ g : Fifo p, exec .rstAssert ⟨p, f, e⟩ = .next ⟨p, g, e⟩ ∧ g.rst = true ∧
      g.wr.wbin = 0#p.AW ∧ g.wr.wgray = 0#p.AW ∧ g.wr.ovf = true ∧
      g.rd.rbin = 0#p.AW ∧ g.rd.rgray = 0#p.AW ∧ g.rd.udf = false ∧
      (∀ k, 1 ≤ k → k ≤ p.NS →
        g.wr.wsyncR.stage k = 0#p.AW ∧ g.wr.wsyncU.stage k = false ∧ g.wr.wrst.stage k = true ∧
        g.rd.rsyncW.stage k = 0#p.AW ∧ g.rd.rsyncO.stage k = true ∧ g.rd.rrst.stage k = true) ∧
      g.storage = f.storage ∧
      g.links.wptr = ⟨g.wr.wgray, false⟩ ∧ g.links.ovf = ⟨g.wr.ovf, false⟩ ∧
      g.links.rptr = ⟨g.rd.rgray, false⟩ ∧ g.links.udf = ⟨g.rd.udf, false⟩ ∧
      g.links.wRst = ⟨g.rst, false⟩ ∧ g.links.rRst = ⟨g.rst, false⟩ ∧
      g.readableR = 0#p.AW ∧ g.writableW.toNat = p.C - 1) ∧
  (∀ (p : Params) (f : Fifo p) (e : Env) (i : Instr), f.rst = true → i.wf p.W = true →
    i ≠ .rstRelease → exec i ⟨p, f, e⟩ = .next ⟨p, f, e⟩)

/-- 70_reset_and_hazards.md R181, the event: when `rst` falls no register changes, and both reset links
see their source change; with `rst` already 0 there is no event. -/
def Obligations.FallOfRstMarksResetLinks : Prop :=
  ∀ (p : Params) (f : Fifo p) (e : Env),
    (f.rst = true → ∃ g : Fifo p, exec .rstRelease ⟨p, f, e⟩ = .next ⟨p, g, e⟩ ∧
      g.rst = false ∧ g.wr = f.wr ∧ g.rd = f.rd ∧ g.storage = f.storage ∧
      g.links = { f.links with wRst := ⟨true, true⟩, rRst := ⟨true, true⟩ }) ∧
    (f.rst = false → exec .rstRelease ⟨p, f, e⟩ = .next ⟨p, f, e⟩)

/-- 40_write_port.md R101: a `wr_clk` edge with `rst = 1` changes nothing; with `rst = 0` and the write
domain in reset it performs the release step only, whatever is requested. -/
def Obligations.WriteEdgesDuringReset : Prop :=
  ∀ (p : Params) (f : Fifo p) (e : Env) (i : Instr), i.format = .wport → i.wf p.W = true →
    (f.rst = true → exec i ⟨p, f, e⟩ = .next ⟨p, f, e⟩) ∧
    (f.rst = false → f.wInReset = true →
      ∃ g : Fifo p, exec i ⟨p, f, e⟩ = .next ⟨p, g, e⟩ ∧
        ChainTook f.links.wRst f.rst f.wr.wrst g.wr.wrst ∧
        g.wr.ovf = f.wr.wrst.stage (p.NS - 1) ∧ g.wr.ovf = g.wInReset ∧
        g.wr.wbin = f.wr.wbin ∧ g.wr.wgray = f.wr.wgray ∧
        g.wr.wsyncR = f.wr.wsyncR ∧ g.wr.wsyncU = f.wr.wsyncU ∧
        g.storage = f.storage ∧ g.rd = f.rd ∧ g.rst = f.rst ∧
        LinkMarked f.links.ovf g.links.ovf f.wr.ovf g.wr.ovf ∧
        g.links = { f.links with wRst := ⟨f.links.wRst.prev, false⟩, ovf := g.links.ovf })

/-- 41_read_port.md R121: an `rd_clk` edge with `rst = 1` changes nothing; with `rst = 0` and the read
domain in reset it performs the release step only, whatever is requested. -/
def Obligations.ReadEdgesDuringReset : Prop :=
  ∀ (p : Params) (f : Fifo p) (e : Env) (i : Instr), i.format = .rport →
    (f.rst = true → exec i ⟨p, f, e⟩ = .next ⟨p, f, e⟩) ∧
    (f.rst = false → f.rInReset = true →
      ∃ g : Fifo p, exec i ⟨p, f, e⟩ = .next ⟨p, g, e⟩ ∧
        ChainTook f.links.rRst f.rst f.rd.rrst g.rd.rrst ∧
        g.rd.rbin = f.rd.rbin ∧ g.rd.rgray = f.rd.rgray ∧ g.rd.udf = f.rd.udf ∧
        g.rd.rsyncW = f.rd.rsyncW ∧ g.rd.rsyncO = f.rd.rsyncO ∧
        (DomainInv f → g.rdOverrun = true) ∧ g.storage = f.storage ∧ g.wr = f.wr ∧ g.rst = f.rst ∧
        g.links = { f.links with rRst := ⟨f.links.rRst.prev, false⟩ })

/-- 42_cdc_sync.md R150, the row of a fall of `rst`: each domain is still in reset before `NS` edges of
its own clock, and out of it after `NS + 1`; at `NS` edges the draws decide. Pushes and pops may be
requested meanwhile. -/
def Obligations.DomainsLeaveResetAfterNSEdges : Prop :=
  ∀ (p : Params) (f : Fifo p) (ls : List StimLine) (rest : List PinEvent) (ds : DrawSel) (tick : Nat),
    ResetInv f → f.rst = true → (∀ l ∈ ls, l.op.wf p.W = true) →
    ((∀ l ∈ ls, l.op.format = .wport) →
      ∃ (g : Fifo p) (e' : Env),
        run (ls.length + 1)
          ⟨p, f, ⟨lineEvents p (plainLine .rstRelease :: ls) ++ rest, ds, tick⟩⟩ = .next ⟨p, g, e'⟩ ∧
        e'.pending = rest ∧ g.rst = false ∧
        (ls.length < p.NS → g.wInReset = true) ∧
        (ls.length = p.NS → (∀ l ∈ ls, l.draw = .old) → g.wInReset = true) ∧
        (ls.length = p.NS → (∀ l ∈ ls, l.draw = .new) → g.wInReset = false ∧ g.wr.ovf = false) ∧
        (p.NS + 1 ≤ ls.length → g.wInReset = false)) ∧
    ((∀ l ∈ ls, l.op.format = .rport) →
      ∃ (g : Fifo p) (e' : Env),
        run (ls.length + 1)
          ⟨p, f, ⟨lineEvents p (plainLine .rstRelease :: ls) ++ rest, ds, tick⟩⟩ = .next ⟨p, g, e'⟩ ∧
        e'.pending = rest ∧ g.rst = false ∧
        (ls.length < p.NS → g.rInReset = true) ∧
        (ls.length = p.NS → (∀ l ∈ ls, l.draw = .old) → g.rInReset = true) ∧
        (ls.length = p.NS → (∀ l ∈ ls, l.draw = .new) → g.rInReset = false) ∧
        (p.NS + 1 ≤ ls.length → g.rInReset = false))

/-- 30_encoding.md R84, 70_reset_and_hazards.md R183: RESET and SETTLE bring every state with `rst = 0`
(power-on states among them) to the settled empty state, storage unchanged, whatever the draws. -/
def Obligations.ResetThenSettleReachesS0 : Prop :=
  ∀ (p : Params) (f : Fifo p) (w₁ r₁ w₂ r₂ : List DrawSel) (rest : List PinEvent) (ds : DrawSel)
    (tick : Nat), f.rst = false →
    w₁.length = p.NS + 1 → r₁.length = p.NS + 1 → w₂.length = p.NS + 1 → r₂.length = p.NS + 1 →
    ∃ (g : Fifo p) (e' : Env),
      run (2 + 4 * (p.NS + 1))
        ⟨p, f, ⟨lineEvents p (plainLine .rstAssert :: plainLine .rstRelease ::
          (idleW w₁ ++ idleR r₁ ++ idleW w₂ ++ idleR r₂)) ++ rest, ds, tick⟩⟩ = .next ⟨p, g, e'⟩ ∧
      IsS0 g ∧ g.storage = f.storage ∧ e'.pending = rest

/-- 30_encoding.md R84: SETTLE brings every state out of reset to a settled state; indices, flags and
storage stay. -/
def Obligations.SettleReachesASettledState : Prop :=
  ∀ (p : Params) (f : Fifo p) (w r : List DrawSel) (rest : List PinEvent) (ds : DrawSel) (tick : Nat),
    f.rst = false → f.wInReset = false → f.rInReset = false →
    w.length = p.NS + 1 → r.length = p.NS + 1 →
    ∃ (g : Fifo p) (e' : Env),
      run (2 * (p.NS + 1))
        ⟨p, f, ⟨lineEvents p (idleW w ++ idleR r) ++ rest, ds, tick⟩⟩ = .next ⟨p, g, e'⟩ ∧
      Settled g ∧ e'.pending = rest ∧ g.storage = f.storage ∧
      g.wr.wbin = f.wr.wbin ∧ g.wr.wgray = f.wr.wgray ∧ g.wr.ovf = f.wr.ovf ∧
      g.rd.rbin = f.rd.rbin ∧ g.rd.rgray = f.rd.rgray ∧ g.rd.udf = f.rd.udf

/-! ## The write port -/

/-- 40_write_port.md R104, R105, R106: a push out of reset steps the synchronizers and then stores and
publishes, or latches overrun, or does nothing more; the rest of the state stays. -/
def Obligations.PushOutOfResetFollowsPseudocode : Prop :=
  ∀ (p : Params) (f : Fifo p) (e : Env) (d : Nat),
    f.rst = false → f.wInReset = false → d < 2 ^ p.W →
    ∃ g : Fifo p, exec (.push d) ⟨p, f, e⟩ = .next ⟨p, g, e⟩ ∧
      SteppedW f g ∧ g.wr.wrst = f.wr.wrst ∧ g.rd = f.rd ∧ SameReset f g ∧
      (∀ a, a ≠ f.wr.wbin.toNat → Memory.read g.storage a = Memory.read f.storage a) ∧
      (f.writableW = 0#p.AW ↔ f.wr.wbin + 1#p.AW = f.wqRbin) ∧
      (f.wr.ovf = true →
        g.wr.wbin = f.wr.wbin ∧ g.wr.wgray = f.wr.wgray ∧ g.wr.ovf = true ∧ SameStorage f g ∧
        g.links.wptr = f.links.wptr ∧ g.links.ovf = f.links.ovf) ∧
      (f.wr.ovf = false → f.writableW = 0#p.AW →
        g.wr.wbin = f.wr.wbin ∧ g.wr.wgray = f.wr.wgray ∧ g.wr.ovf = true ∧ SameStorage f g ∧
        g.links.wptr = f.links.wptr ∧ g.links.ovf = ⟨false, true⟩) ∧
      (f.wr.ovf = false → f.writableW ≠ 0#p.AW →
        Memory.read g.storage f.wr.wbin.toNat = BitVec.ofNat p.W d ∧
        g.wr.wbin.toNat = (f.wr.wbin.toNat + 1) &&& p.MASK ∧
        g.wr.wgray = g.wr.wbin ^^^ (g.wr.wbin >>> 1) ∧ g.wr.ovf = false ∧
        LinkMarked f.links.wptr g.links.wptr f.wr.wgray g.wr.wgray ∧ g.links.ovf = f.links.ovf)

/-- 40_write_port.md R103: WIDLE out of reset steps the synchronizers and nothing else, whatever
`wr_data` is. -/
def Obligations.WidleOutOfResetOnlySynchronizes : Prop :=
  ∀ (p : Params) (f : Fifo p) (e : Env) (x : Nat), f.rst = false → f.wInReset = false →
    ∃ g : Fifo p, exec (.widle x) ⟨p, f, e⟩ = .next ⟨p, g, e⟩ ∧
      SteppedW f g ∧ g.wr.wbin = f.wr.wbin ∧ g.wr.wgray = f.wr.wgray ∧ g.wr.ovf = f.wr.ovf ∧
      g.wr.wrst = f.wr.wrst ∧ g.rd = f.rd ∧ SameReset f g ∧ g.storage = f.storage ∧
      g.links.wptr = f.links.wptr ∧ g.links.ovf = f.links.ovf

/-- 10_state.md R43: a push is accepted exactly when `wr_ready` is 1 just before its edge, and
`wr_ready = 0` during reset. -/
def Obligations.WrReadyDecidesThePush : Prop :=
  ∀ (p : Params) (f : Fifo p) (e : Env) (d obs : Nat), Inv f → d < 2 ^ p.W →
    ∃ g : Fifo p, exec (.push d) ⟨p, f, e⟩ = .next ⟨p, g, e⟩ ∧
      ((State.outputs ⟨p, f, e⟩ obs).wrReady = true → g.wr.wbin = f.wr.wbin + 1#p.AW ∧
        Memory.read g.storage f.wr.wbin.toNat = BitVec.ofNat p.W d ∧ g.wr.ovf = false) ∧
      ((State.outputs ⟨p, f, e⟩ obs).wrReady = false → g.wr.wbin = f.wr.wbin ∧ SameStorage f g) ∧
      (f.wInReset = true → (State.outputs ⟨p, f, e⟩ obs).wrReady = false) ∧
      (State.outputs ⟨p, f, e⟩ obs).wrReady =
        (!(State.outputs ⟨p, f, e⟩ obs).wrFull && !f.wr.ovf && !f.wInReset) ∧
      (State.outputs ⟨p, f, e⟩ obs).wrOverrun = f.wr.ovf

/-- 40_write_port.md R110: from a settled empty state `C - 1` pushes on consecutive edges are all
accepted, and the next one latches overrun (while overrun is latched already no push is, R106). -/
def Obligations.OverrunBoundaryAtCapacityMinusOne : Prop :=
  ∀ (p : Params) (f : Fifo p) (ls : List StimLine) (rest : List PinEvent) (ds : DrawSel) (tick : Nat),
    Inv f → Settled f → f.occupancy = 0#p.AW → f.wr.ovf = false → ls.length = p.C →
    (∀ l ∈ ls, ∃ d, l.op = .push d ∧ d < 2 ^ p.W) →
    (∀ k, k ≤ p.C - 1 → ∃ (g : Fifo p) (e' : Env),
      run k ⟨p, f, ⟨lineEvents p ls ++ rest, ds, tick⟩⟩ = .next ⟨p, g, e'⟩ ∧
      g.wr.ovf = false ∧ g.wr.wbin = f.wr.wbin + BitVec.ofNat p.AW k ∧
      g.writableW.toNat = p.C - 1 - k) ∧
    ∃ (g : Fifo p) (e' : Env),
      run p.C ⟨p, f, ⟨lineEvents p ls ++ rest, ds, tick⟩⟩ = .next ⟨p, g, e'⟩ ∧
      g.wr.ovf = true ∧ g.wr.wbin = f.wr.wbin + BitVec.ofNat p.AW (p.C - 1)

/-! ## The read port -/

/-- 41_read_port.md R124, R125: a pop out of reset steps the synchronizers and then consumes the head
record, or sets underrun and moves nothing; `udf` is written by every pop; the rest stays. -/
def Obligations.PopOutOfResetFollowsPseudocode : Prop :=
  ∀ (p : Params) (f : Fifo p) (e : Env), f.rst = false → f.rInReset = false →
    ∃ g : Fifo p, exec .pop ⟨p, f, e⟩ = .next ⟨p, g, e⟩ ∧
      SteppedR f g ∧ g.rd.rrst = f.rd.rrst ∧ g.wr = f.wr ∧ SameReset f g ∧
      g.storage = f.storage ∧
      (f.readableR = 0#p.AW →
        g.rd.udf = true ∧ g.rd.rbin = f.rd.rbin ∧ g.rd.rgray = f.rd.rgray ∧
        LinkMarked f.links.udf g.links.udf f.rd.udf true ∧ g.links.rptr = f.links.rptr) ∧
      (f.readableR ≠ 0#p.AW →
        (∀ obs, (State.outputs ⟨p, f, e⟩ obs).rdData = Memory.read f.storage f.rd.rbin.toNat) ∧
        g.rd.udf = false ∧ g.rd.rbin.toNat = (f.rd.rbin.toNat + 1) &&& p.MASK ∧
        g.rd.rgray = g.rd.rbin ^^^ (g.rd.rbin >>> 1) ∧
        LinkMarked f.links.udf g.links.udf f.rd.udf false ∧
        LinkMarked f.links.rptr g.links.rptr f.rd.rgray g.rd.rgray)

/-- 41_read_port.md R123: RIDLE out of reset steps the synchronizers and nothing else. -/
def Obligations.RidleOutOfResetOnlySynchronizes : Prop :=
  ∀ (p : Params) (f : Fifo p) (e : Env), f.rst = false → f.rInReset = false →
    ∃ g : Fifo p, exec .ridle ⟨p, f, e⟩ = .next ⟨p, g, e⟩ ∧
      SteppedR f g ∧ g.rd.rbin = f.rd.rbin ∧ g.rd.rgray = f.rd.rgray ∧ g.rd.udf = f.rd.udf ∧
      g.rd.rrst = f.rd.rrst ∧ g.wr = f.wr ∧ SameReset f g ∧ g.storage = f.storage ∧
      g.links.rptr = f.links.rptr ∧ g.links.udf = f.links.udf

/-- 41_read_port.md R130: a pop made when `rd_ready = 1` is accepted, leaves `udf = 0`, and hands over
the oldest unread record. -/
def Obligations.RdReadyPopReturnsTheOldestRecord : Prop :=
  ∀ (p : Params) (f : Fifo p) (e : Env) (obs : Nat), Inv f →
    (State.outputs ⟨p, f, e⟩ obs).rdReady = true →
    ∃ g : Fifo p, exec .pop ⟨p, f, e⟩ = .next ⟨p, g, e⟩ ∧ g.rd.udf = false ∧
      g.rd.rbin = f.rd.rbin + 1#p.AW ∧
      contents f = (State.outputs ⟨p, f, e⟩ obs).rdData :: contents g

/-! ## Outputs -/

/-- 10_state.md R41, R42: both counts are the source's formulas on the domain's own index and its view
of the other one, modulo `C`; full and empty are a count of 0. -/
def Obligations.CountsFollowTheFormulas : Prop :=
  ∀ (p : Params) (f : Fifo p) (e : Env) (obs : Nat),
    let o := State.outputs ⟨p, f, e⟩ obs
    ((o.wrCount.toNat : Int) =
      ((bin (f.wr.wsyncR.stage p.NS)).toNat - f.wr.wbin.toNat - 1 : Int) % (p.C : Int)) ∧
    o.wrCount.toNat ≤ p.C - 1 ∧ (o.wrFull = true ↔ o.wrCount.toNat = 0) ∧
    ((o.rdCount.toNat : Int) =
      ((bin (f.rd.rsyncW.stage p.NS)).toNat - f.rd.rbin.toNat : Int) % (p.C : Int)) ∧
    o.rdCount.toNat ≤ p.C - 1 ∧ (o.rdEmpty = true ↔ o.rdCount.toNat = 0) ∧
    (o.rdEmpty = true ↔ bin (f.rd.rsyncW.stage p.NS) = f.rd.rbin)

/-- 10_state.md R44, R47: the spans are the counts cut at the wrap, with the sentinel already reserved
when the read index is 0; during read-domain reset the read port is empty and not ready. -/
def Obligations.SpansAreCountsCutAtTheWrap : Prop :=
  ∀ (p : Params) (f : Fifo p) (e : Env) (obs : Nat),
    let o := State.outputs ⟨p, f, e⟩ obs
    o.wrIndex = f.wr.wbin ∧ o.wrSpan.toNat = min o.wrCount.toNat (p.C - f.wr.wbin.toNat) ∧
    o.wrSpan.toNat ≤ p.C - 1 ∧
    (f.wqRbin = 0#p.AW → o.wrCount.toNat = p.C - 1 - f.wr.wbin.toNat ∧
      o.wrSpan.toNat = p.C - 1 - f.wr.wbin.toNat) ∧
    o.rdIndex = f.rd.rbin ∧ o.rdSpan.toNat = min o.rdCount.toNat (p.C - f.rd.rbin.toNat) ∧
    o.rdSpan.toNat ≤ p.C - 1 ∧
    (o.rdReady = true ↔ o.rdEmpty = false ∧ f.rInReset = false) ∧
    (DomainInv f → f.rInReset = true → o.rdEmpty = true ∧ o.rdReady = false)

/-- 10_state.md R46 and 30_encoding.md R81: each flag is shown by the side that owns it and, through
stage `NS`, by the other; the status vectors pack those outputs. -/
def Obligations.FlagOutputsAndStatusVectors : Prop :=
  ∀ (p : Params) (f : Fifo p) (e : Env) (obs : Nat),
    let o := State.outputs ⟨p, f, e⟩ obs
    o.rdUnderrun = f.rd.udf ∧ o.rdOverrun = f.rd.rsyncO.stage p.NS ∧
    o.wrUnderrun = f.wr.wsyncU.stage p.NS ∧ o.wrOverrun = f.wr.ovf ∧
    f.wstatus.getLsbD 0 = o.wrReady ∧ f.wstatus.getLsbD 1 = o.wrFull ∧
    f.wstatus.getLsbD 2 = o.wrOverrun ∧ f.wstatus.getLsbD 3 = o.wrUnderrun ∧
    f.rstatus.getLsbD 0 = o.rdReady ∧ f.rstatus.getLsbD 1 = o.rdEmpty ∧
    f.rstatus.getLsbD 2 = o.rdUnderrun ∧ f.rstatus.getLsbD 3 = o.rdOverrun

/-- 10_state.md R45 with 20_memory.md R58: while `rd_empty = 0`, `rd_data` is the slot `rbin` at every
observation, and it is the oldest unread record. -/
def Obligations.ReadDataShowsTheHeadRecord : Prop :=
  ∀ (p : Params) (f : Fifo p) (e : Env) (obs : Nat),
    let o := State.outputs ⟨p, f, e⟩ obs
    o.rdEmpty = false →
      o.rdData = Memory.read f.storage f.rd.rbin.toNat ∧
      (Inv f → (contents f).head? = some o.rdData)

/-- The outputs while both domains are in reset (10_state.md, section 7), at the state right after a
rise of `rst`; `State.reset` is that state (log 2). -/
def Obligations.OutputsRightAfterReset : Prop :=
  ∀ (p : Params) (obs : Nat),
    let o := (State.resetOf p).outputs obs
    o.wrCount.toNat = p.C - 1 ∧ o.wrFull = false ∧ o.wrOverrun = true ∧ o.wrReady = false ∧
    o.wrSpan.toNat = p.C - 1 ∧ o.wrIndex.toNat = 0 ∧ o.wrUnderrun = false ∧
    o.rdCount.toNat = 0 ∧ o.rdEmpty = true ∧ o.rdReady = false ∧ o.rdSpan.toNat = 0 ∧
    o.rdIndex.toNat = 0 ∧ o.rdUnderrun = false ∧ o.rdOverrun = true

/-! ## Gray code -/

/-- 30_encoding.md R76: the bits of `gray(b)`. -/
def Obligations.GrayBitsAreNeighbourXors : Prop :=
  ∀ (n : Nat) (b : Index n), 1 ≤ n →
    gray b = b ^^^ (b >>> 1) ∧ (gray b).getLsbD (n - 1) = b.getLsbD (n - 1) ∧
    ∀ i, i < n - 1 → (gray b).getLsbD i = (b.getLsbD (i + 1) ^^ b.getLsbD i)

/-- 30_encoding.md R77: the bits of `bin(g)`, by the recurrence from the top bit and as the
exclusive-or of `g[AW-1:i]`. -/
def Obligations.BinBitsArePrefixXors : Prop :=
  ∀ (n : Nat) (g : Gray n), 1 ≤ n →
    (bin g).getLsbD (n - 1) = g.getLsbD (n - 1) ∧
    (∀ i, i < n - 1 → (bin g).getLsbD i = ((bin g).getLsbD (i + 1) ^^ g.getLsbD i)) ∧
    ∀ i, i < n → (bin g).getLsbD i =
      ((List.range (n - i)).map fun k => g.getLsbD (i + k)).foldr Bool.xor false

/-- 30_encoding.md R78: `bin` and `gray` are inverse to each other, so `gray` is a bijection; it takes 0
to 0. -/
def Obligations.GrayAndBinAreInverse : Prop :=
  ∀ n : Nat, (∀ b : Index n, bin (gray b) = b) ∧ (∀ g : Gray n, gray (bin g) = g) ∧
    Function.Bijective (gray : Index n → Gray n) ∧ gray 0#n = 0#n

/-- 30_encoding.md R79: successive gray values differ in exactly one bit, the wrap included, whose gray
value is 1 followed by zeros; so each gray index register changes in at most one bit at an edge. -/
def Obligations.GrayChangesOneBitPerStep : Prop :=
  (∀ (n : Nat) (b : Index n), 1 ≤ n → DifferInOneBit (gray (b + 1#n)) (gray b)) ∧
  (∀ n : Nat, 1 ≤ n → BitVec.allOnes n + 1#n = 0#n ∧ gray 0#n = 0#n ∧
    ∀ i, (gray (BitVec.allOnes n)).getLsbD i = decide (i = n - 1)) ∧
  (∀ (p : Params) (f g : Fifo p) (e : Env) (i : Instr), DomainInv f → i ≠ .rstAssert →
    exec i ⟨p, f, e⟩ = .next ⟨p, g, e⟩ →
    (g.wr.wgray = f.wr.wgray ∨ DifferInOneBit g.wr.wgray f.wr.wgray) ∧
    (g.rd.rgray = f.rd.rgray ∨ DifferInOneBit g.rd.rgray f.rd.rgray))

/-! ## Clock-domain crossing -/

/-- 42_cdc_sync.md R142 with 30_encoding.md R83: a sample is the current value, or, where the link is
dirty, that or `prev_L`; the directives fix it; the sample clears `dirty_L`. -/
def Obligations.SampleIsPreviousOrCurrentValue : Prop :=
  ∀ (w tick : Nat) (ps : List PinEvent) (ds : DrawSel) (l : Link) (b : LinkBook (BitVec w))
    (cur : BitVec w),
    SampleAllowed b cur (sample ⟨ps, ds, tick⟩ l b cur) ∧
    (ds = .new → sample ⟨ps, ds, tick⟩ l b cur = cur) ∧
    (ds = .old → b.dirty = true → sample ⟨ps, ds, tick⟩ l b cur = b.prev) ∧
    b.sampled.dirty = false ∧ b.sampled.prev = b.prev

/-- 42_cdc_sync.md R143: whatever event changes a link's source marks the link with the value before,
and these are the events that change sources. -/
def Obligations.SourceChangesMarkTheirLinks : Prop :=
  ∀ (p : Params) (f g : Fifo p) (e : Env) (i : Instr),
    exec i ⟨p, f, e⟩ = .next ⟨p, g, e⟩ → ¬ (i = .rstAssert ∧ f.rst = false) →
    (g.wr.wgray ≠ f.wr.wgray →
      g.links.wptr = ⟨f.wr.wgray, true⟩ ∧ (∃ d, i = .push d) ∧ PushAccepted f) ∧
    (g.wr.ovf ≠ f.wr.ovf →
      g.links.ovf = ⟨f.wr.ovf, true⟩ ∧
      ((f.wr.ovf = false ∧ f.rst = false ∧ f.wInReset = false ∧ (∃ d, i = .push d) ∧ f.writableW = 0#p.AW) ∨
       (i.format = .wport ∧ f.rst = false ∧ f.wInReset = true ∧ g.wr.ovf = g.wInReset))) ∧
    (g.rd.rgray ≠ f.rd.rgray → g.links.rptr = ⟨f.rd.rgray, true⟩ ∧ i = .pop ∧ PopAccepted f) ∧
    (g.rd.udf ≠ f.rd.udf →
      g.links.udf = ⟨f.rd.udf, true⟩ ∧ i = .pop ∧ f.rst = false ∧ f.rInReset = false ∧
      (f.rd.udf = true ↔ f.readableR ≠ 0#p.AW)) ∧
    (g.rst ≠ f.rst →
      g.links.wRst = ⟨f.rst, true⟩ ∧ g.links.rRst = ⟨f.rst, true⟩ ∧ i = .rstRelease ∧ f.rst = true)

/-- 42_cdc_sync.md R150: what a domain has registered is in every stage of the other domain's chain
after `NS + 1` idle edges of that domain's clock, and after `NS` if the first draw is new. -/
def Obligations.IdleEdgesDeliverTheOtherSide : Prop :=
  ∀ (p : Params) (f : Fifo p) (l : List DrawSel) (rest : List PinEvent) (ds : DrawSel) (tick : Nat),
    f.rst = false →
    (f.rInReset = false →
      ∃ (g : Fifo p) (e' : Env),
        run l.length ⟨p, f, ⟨lineEvents p (idleR l) ++ rest, ds, tick⟩⟩ = .next ⟨p, g, e'⟩ ∧
        e'.pending = rest ∧ g.wr = f.wr ∧ g.storage = f.storage ∧ g.rd.rbin = f.rd.rbin ∧
        ((p.NS + 1 ≤ l.length ∨ (p.NS ≤ l.length ∧ l.head? = some .new)) →
          g.rd.rsyncW = Chain.fill f.wr.wgray ∧ g.rd.rsyncO = Chain.fill f.wr.ovf ∧
          (DomainInv f → g.readableR = f.occupancy))) ∧
    (f.wInReset = false →
      ∃ (g : Fifo p) (e' : Env),
        run l.length ⟨p, f, ⟨lineEvents p (idleW l) ++ rest, ds, tick⟩⟩ = .next ⟨p, g, e'⟩ ∧
        e'.pending = rest ∧ g.rd = f.rd ∧ g.storage = f.storage ∧ g.wr.wbin = f.wr.wbin ∧
        ((p.NS + 1 ≤ l.length ∨ (p.NS ≤ l.length ∧ l.head? = some .new)) →
          g.wr.wsyncR = Chain.fill f.rd.rgray ∧ g.wr.wsyncU = Chain.fill f.rd.udf ∧
          (DomainInv f → g.writableW.toNat + f.occupancy.toNat = p.C - 1)))

/-- 42_cdc_sync.md R152: a push and an idle read edge that coincide. Destination first leaves the same
registers and storage as source first with the old draw; only then the write-index link stays
dirty. -/
def Obligations.CoincidentEdgesAgreeOnTheOldDraw : Prop :=
  ∀ (p : Params) (f : Fifo p) (ps : List PinEvent) (tick d : Nat),
    DomainInv f → PushAccepted f → f.rInReset = false → d < 2 ^ p.W → f.links.wptr.dirty = false →
    ∃ f₁ f₂ g h : Fifo p,
      exec (.push d) ⟨p, f, ⟨ps, .old, tick⟩⟩ = .next ⟨p, f₁, ⟨ps, .old, tick⟩⟩ ∧
      exec .ridle ⟨p, f₁, ⟨ps, .old, tick⟩⟩ = .next ⟨p, g, ⟨ps, .old, tick⟩⟩ ∧
      exec .ridle ⟨p, f, ⟨ps, .old, tick⟩⟩ = .next ⟨p, f₂, ⟨ps, .old, tick⟩⟩ ∧
      exec (.push d) ⟨p, f₂, ⟨ps, .old, tick⟩⟩ = .next ⟨p, h, ⟨ps, .old, tick⟩⟩ ∧
      g.rd = h.rd ∧ g.wr = h.wr ∧ g.storage = h.storage ∧
      g.links.wptr.dirty = false ∧ h.links.wptr = ⟨f.wr.wgray, true⟩

/-- 42_cdc_sync.md R149: the views of the indices only move forward. No event but a pop lowers
`readable_r`, and a pop by at most one; no event but a push lowers `writable_w`, and a push by at most
one (a rise of `rst` starts again). -/
def Obligations.ViewsOnlyMoveForward : Prop :=
  ∀ (p : Params) (f : Fifo p) (e : Env) (i : Instr), Inv f → i.wf p.W = true →
    ¬ (i = .rstAssert ∧ f.rst = false) →
    ∃ g : Fifo p, exec i ⟨p, f, e⟩ = .next ⟨p, g, e⟩ ∧
      (i ≠ .pop → f.readableR.toNat ≤ g.readableR.toNat) ∧
      f.readableR.toNat ≤ g.readableR.toNat + 1 ∧
      ((∀ d, i ≠ .push d) → f.writableW.toNat ≤ g.writableW.toNat) ∧
      f.writableW.toNat ≤ g.writableW.toNat + 1

/-! ## Invariants -/

/-- The invariants hold right after reset, for every choice of the parameters. -/
def Obligations.ResetMeetsTheInvariants : Prop :=
  (∀ p : Params, Inv (State.resetOf p).fifo) ∧ Inv State.reset.fifo

/-- 10_state.md R36: the invariants of the state hold after every rise of `rst`, and every step keeps
them. -/
def Obligations.DomainInvariantsHoldAfterTheFirstReset : Prop :=
  (∀ (p : Params) (f : Fifo p) (e : Env), f.rst = false →
    ∃ g : Fifo p, exec .rstAssert ⟨p, f, e⟩ = .next ⟨p, g, e⟩ ∧ DomainInv g) ∧
  (∀ s t : State, DomainInv s.fifo → step s = .next t → DomainInv t.fifo)

/-- A rise of `rst` establishes all invariants from every state whose storage list is canonical, a
power-on state among them (70_reset_and_hazards.md R184; log 10). -/
def Obligations.RiseOfRstEstablishesTheInvariants : Prop :=
  (∀ (p : Params) (f : Fifo p) (e : Env), f.rst = false → StorageInv f →
    ∃ g : Fifo p, exec .rstAssert ⟨p, f, e⟩ = .next ⟨p, g, e⟩ ∧ Inv g) ∧
  (∀ (p : Params) (f : Fifo p), AtPowerOn f → StorageInv f)

/-- Every step keeps all invariants: 10_state.md R36, the reset synchronizers (42_cdc_sync.md R147), the
ordered views (20_memory.md R59, R60; 42_cdc_sync.md R149) and the canonical form of storage (log 8). -/
def Obligations.EveryStepKeepsTheInvariants : Prop :=
  ∀ s t : State, Inv s.fifo → step s = .next t → Inv t.fifo

/-- 20_memory.md R59, R60, R63: neither count exceeds the truth, and the true occupancy never exceeds
`C - 1`. -/
def Obligations.ViewsNeverExceedTheTruth : Prop :=
  ∀ (p : Params) (f : Fifo p), Inv f →
    f.readableR.toNat ≤ f.occupancy.toNat ∧
    f.writableW.toNat ≤ p.C - 1 - f.occupancy.toNat ∧ f.occupancy.toNat ≤ p.C - 1

/-- 20_memory.md R61: in a settled state the counts are the truth and sum to `C - 1`; in every state
they sum to at most `C - 1`. -/
def Obligations.SumLawOfTheCounts : Prop :=
  ∀ (p : Params) (f : Fifo p), Inv f →
    f.readableR.toNat + f.writableW.toNat ≤ p.C - 1 ∧
    (Settled f → f.readableR = f.occupancy ∧ f.writableW.toNat = p.C - 1 - f.occupancy.toNat ∧
      f.readableR.toNat + f.writableW.toNat = p.C - 1)

/-- 20_memory.md R58: no event writes a slot that holds an unread record; slot `rbin` is the next to be
written only when there is none, and then the read side sees none. -/
def Obligations.UnreadSlotsAreNeverWritten : Prop :=
  ∀ (p : Params) (f : Fifo p) (e : Env) (i : Instr), Inv f → i.wf p.W = true →
    ∃ g : Fifo p, exec i ⟨p, f, e⟩ = .next ⟨p, g, e⟩ ∧
      (∀ k, k < f.occupancy.toNat →
        (f.rd.rbin + BitVec.ofNat p.AW k) ≠ f.wr.wbin ∧
        Memory.read g.storage (f.rd.rbin + BitVec.ofNat p.AW k).toNat =
          Memory.read f.storage (f.rd.rbin + BitVec.ofNat p.AW k).toNat) ∧
      (f.wr.wbin = f.rd.rbin → f.occupancy = 0#p.AW ∧ f.readableR = 0#p.AW)

/-- The block is a first-in first-out queue (20_memory.md R62): an accepted push appends its record, an
accepted pop takes the head, which is `rd_data`, a rise of `rst` empties it, and nothing else changes
it. -/
def Obligations.BlockRefinesAQueue : Prop :=
  ∀ (p : Params) (f : Fifo p) (e : Env) (i : Instr), Inv f → i.wf p.W = true →
    ∃ g : Fifo p, exec i ⟨p, f, e⟩ = .next ⟨p, g, e⟩ ∧
      (∀ d, i = .push d → PushAccepted f → contents g = contents f ++ [BitVec.ofNat p.W d]) ∧
      (i = .pop → PopAccepted f →
        ∀ obs, contents f = (State.outputs ⟨p, f, e⟩ obs).rdData :: contents g) ∧
      (i = .rstAssert → f.rst = false → contents g = []) ∧
      ((∀ d, i = .push d → ¬ PushAccepted f) → (i = .pop → ¬ PopAccepted f) →
        (i = .rstAssert → f.rst = true) → contents g = contents f)

/-- 20_memory.md R62 along every run without a rise of `rst`, whatever the order of the events and the
draws: the records handed over, followed by those still held, are those held before, followed by
those accepted; so from an empty block (every rise of `rst` leaves one) the `k`-th record handed over
is the `k`-th record accepted. -/
def Obligations.RunsDeliverEveryRecordInOrder : Prop :=
  ∀ (k : Nat) (s t : State), Inv s.fifo → run k s = .next t → noRiseIn k s = true →
    s.queue ++ pushedIn k s = poppedIn k s ++ t.queue ∧
    (contents s.fifo = [] → poppedIn k s <+: pushedIn k s)

/-! ## Rules over all operations -/

/-- 60_exceptions.md R172: no input of the write port changes a read-domain register, no input of the
read port changes a write-domain register (or storage, 41_read_port.md R120); `rst` resets both. -/
def Obligations.PortsChangeOnlyTheirOwnDomain : Prop :=
  ∀ (p : Params) (f g : Fifo p) (e : Env) (i : Instr), exec i ⟨p, f, e⟩ = .next ⟨p, g, e⟩ →
    (i.format = .wport → g.rd = f.rd ∧ g.rst = f.rst) ∧
    (i.format = .rport → g.wr = f.wr ∧ g.storage = f.storage ∧ g.rst = f.rst) ∧
    (i.format = .rst → g.storage = f.storage ∧
      (f.rst = false → i = .rstAssert → g.wr = (Fifo.reset p).wr ∧ g.rd = (Fifo.reset p).rd))

/-- 42_cdc_sync.md R140: nothing crosses but the links. After an edge a domain's registers depend only
on its own registers, on `rst`, on the sources and bookkeeping of the links into it, and on the draws:
the two runs are compared with the same draws. That the same event number and link give the same open
draw in both runs is the model's DESIGN CHOICE (log 4), which a chip does not promise; 42_cdc_sync.md
R142 puts draws under no law. -/
def Obligations.NothingCrossesButTheLinks : Prop :=
  ∀ (p : Params) (f f' : Fifo p) (e : Env) (i : Instr), i.wf p.W = true → f'.rst = f.rst →
    (i.format = .wport → f'.wr = f.wr → f'.rd.rgray = f.rd.rgray → f'.rd.udf = f.rd.udf →
      f'.links.rptr = f.links.rptr → f'.links.udf = f.links.udf → f'.links.wRst = f.links.wRst →
      ∃ g g' : Fifo p, exec i ⟨p, f, e⟩ = .next ⟨p, g, e⟩ ∧
        exec i ⟨p, f', e⟩ = .next ⟨p, g', e⟩ ∧ g'.wr = g.wr) ∧
    (i.format = .rport → f'.rd = f.rd → f'.wr.wgray = f.wr.wgray → f'.wr.ovf = f.wr.ovf →
      f'.links.wptr = f.links.wptr → f'.links.ovf = f.links.ovf → f'.links.rRst = f.links.rRst →
      ∃ g g' : Fifo p, exec i ⟨p, f, e⟩ = .next ⟨p, g, e⟩ ∧
        exec i ⟨p, f', e⟩ = .next ⟨p, g', e⟩ ∧ g'.rd = g.rd)

/-- 20_memory.md R52: a record is an opaque word. What the slots hold steers nothing: with other
contents of storage and with the same draws every operation leaves the same registers and bookkeeping.
That the same event number and link give the same open draw in both runs is the model's DESIGN CHOICE
(log 4), which a chip does not promise; 42_cdc_sync.md R142 puts draws under no law. -/
def Obligations.RecordsNeverSteerTheBlock : Prop :=
  ∀ (p : Params) (f : Fifo p) (m : Memory p.W) (e : Env) (i : Instr), i.wf p.W = true →
    ∃ (g : Fifo p) (m' : Memory p.W), exec i ⟨p, f, e⟩ = .next ⟨p, g, e⟩ ∧
      exec i ⟨p, { f with storage := m }, e⟩ = .next ⟨p, { g with storage := m' }, e⟩

/-- 10_state.md R22, R28: an index is written only by an accepted push or pop of its own side, which
advances it by one, and by a rise of `rst`. -/
def Obligations.IndicesAdvanceOnlyByAcceptedOperations : Prop :=
  ∀ (p : Params) (f g : Fifo p) (e : Env) (i : Instr), exec i ⟨p, f, e⟩ = .next ⟨p, g, e⟩ →
    (g.wr.wbin = f.wr.wbin ∨
      (g.wr.wbin = f.wr.wbin + 1#p.AW ∧ (∃ d, i = .push d) ∧ PushAccepted f) ∨
      (g.wr.wbin = 0#p.AW ∧ i = .rstAssert ∧ f.rst = false)) ∧
    (g.rd.rbin = f.rd.rbin ∨
      (g.rd.rbin = f.rd.rbin + 1#p.AW ∧ i = .pop ∧ PopAccepted f) ∨
      (g.rd.rbin = 0#p.AW ∧ i = .rstAssert ∧ f.rst = false))

/-- 10_state.md R24, 60_exceptions.md R171: a latched overrun is cleared at the edge at which the write
domain leaves reset, and by no other event. -/
def Obligations.OverrunClearsOnlyAtResetRelease : Prop :=
  ∀ (p : Params) (f g : Fifo p) (e : Env) (i : Instr), exec i ⟨p, f, e⟩ = .next ⟨p, g, e⟩ →
    f.wr.ovf = true → g.wr.ovf = false →
    i.format = .wport ∧ f.rst = false ∧ f.wInReset = true ∧ g.wInReset = false
end

