-- ==== Sys2Proof/Laws/Chain.lean ====
section
/-! SUPPORT. What the chain and link operations do: one lemma each for shifting, sampling and marking,
which the proofs cite instead of unfolding (42_cdc_sync.md R141 to R143). -/

namespace Sys2Proof.Machine

open Sys2Proof

section Chains
variable {α : Type} {n : Nat}

theorem Chain.ext_stages {c d : Chain α n} (h : c.stages = d.stages) : c = d := by
  cases c; cases d; simpa using h

/-- Stage 1 takes the value, stage `k` the old stage `k-1`. -/
theorem Chain.stages_shift (c : Chain α n) (v : α) (hn : 1 ≤ n) :
    (c.shift v).stages = v :: c.stages.dropLast := by
  obtain ⟨k, rfl⟩ : ∃ k, n = k + 1 := ⟨n - 1, by omega⟩
  have hl := c.len
  simp only [Chain.shift, List.take_succ_cons, List.dropLast_eq_take, hl]
  simp

variable [Inhabited α]

theorem Chain.stage_one_shift (c : Chain α n) (v : α) (hn : 1 ≤ n) : (c.shift v).stage 1 = v := by
  simp [Chain.stage, Chain.stages_shift c v hn]

theorem Chain.stage_succ_shift (c : Chain α n) (v : α) {k : Nat} (hk : 1 ≤ k) (hkn : k < n) :
    (c.shift v).stage (k + 1) = c.stage k := by
  obtain ⟨j, rfl⟩ : ∃ j, k = j + 1 := ⟨k - 1, by omega⟩
  have hl := c.len
  simp only [Chain.stage, Chain.stages_shift c v (by omega), Nat.add_sub_cancel,
    List.getD_eq_getElem?_getD, List.getElem?_cons_succ]
  rw [List.getElem?_dropLast, if_pos (by omega)]

/-- Stage `NS` takes stage `NS-1`. -/
theorem Chain.last_shift (c : Chain α n) (v : α) (hn : 2 ≤ n) :
    (c.shift v).last = c.stage (n - 1) := by
  have := Chain.stage_succ_shift c v (k := n - 1) (by omega) (by omega)
  rwa [Nat.sub_add_cancel (by omega)] at this

theorem Chain.last_fill (v : α) (hn : 1 ≤ n) : (Chain.fill v : Chain α n).last = v := by
  simp [Chain.last, Chain.stage, Chain.fill, List.getD_eq_getElem?_getD,
    Nat.sub_lt hn Nat.one_pos]

theorem Chain.stage_fill (v : α) {k : Nat} (hk : 1 ≤ k) (hkn : k ≤ n) :
    (Chain.fill v : Chain α n).stage k = v := by
  simp [Chain.stage, Chain.fill, List.getD_eq_getElem?_getD,
    show k - 1 < n by omega]

end Chains

section LinkLaws
variable {α : Type}

/-- A sample is a value the draw allows. -/
theorem sample_allowed (e : Env) (l : Link) (b : LinkBook α) (cur : α) :
    SampleAllowed b cur (sample e l b cur) := by
  unfold sample SampleAllowed
  split
  · rename_i hd
    split
    · exact Or.inr ⟨hd, rfl⟩
    · exact Or.inl rfl
    · split
      · exact Or.inr ⟨hd, rfl⟩
      · exact Or.inl rfl
  · exact Or.inl rfl

@[simp] theorem sample_clean (e : Env) (l : Link) {b : LinkBook α} (cur : α) (h : b.dirty = false) :
    sample e l b cur = cur := by simp [sample, h]

@[simp] theorem sampled_prev (b : LinkBook α) : b.sampled.prev = b.prev := rfl
@[simp] theorem sampled_dirty (b : LinkBook α) : b.sampled.dirty = false := rfl

/-- A change of the source marks the link; no change leaves it. -/
theorem changed_marks [DecidableEq α] (b : LinkBook α) (a v : α) :
    LinkMarked b (b.changed a v) a v := by
  by_cases h : v = a <;> simp [LinkMarked, LinkBook.changed, h]

@[simp] theorem changed_same [DecidableEq α] (b : LinkBook α) (a : α) : b.changed a a = b := by
  simp [LinkBook.changed]

theorem changed_ne [DecidableEq α] (b : LinkBook α) {a v : α} (h : v ≠ a) :
    b.changed a v = ⟨a, true⟩ := by simp [LinkBook.changed, h]

end LinkLaws

section Steps
variable {p : Params}

/-- The write domain's synchronizer step does what 42_cdc_sync.md R146 says. -/
theorem syncStepW_stepped (e : Env) (f : Fifo p) : SteppedW f (syncStepW e f) :=
  ⟨⟨_, sample_allowed e .rptr _ _, Chain.stages_shift _ _ (by have := p.NS_two; omega)⟩,
   ⟨_, sample_allowed e .udf _ _, Chain.stages_shift _ _ (by have := p.NS_two; omega)⟩, rfl, rfl⟩

/-- The read domain's synchronizer step does what 42_cdc_sync.md R146 says. -/
theorem syncStepR_stepped (e : Env) (f : Fifo p) : SteppedR f (syncStepR e f) :=
  ⟨⟨_, sample_allowed e .wptr _ _, Chain.stages_shift _ _ (by have := p.NS_two; omega)⟩,
   ⟨_, sample_allowed e .ovf _ _, Chain.stages_shift _ _ (by have := p.NS_two; omega)⟩, rfl, rfl⟩

end Steps

end Sys2Proof.Machine
end

