-- ==== Sys2Proof/Laws/Decode.lean ====
section
/-! SUPPORT. The laws of the bit lists the decoder and the encoder are written with. -/

namespace Sys2Proof

@[simp] theorem length_bitsOfNat (n v : Nat) : (bitsOfNat n v).length = n := by
  induction n generalizing v with
  | zero => rfl
  | succ n ih => simp [bitsOfNat, ih]

/-- The bits of a number stand for it, up to the width. -/
theorem natOfBits_bitsOfNat (n v : Nat) : natOfBits (bitsOfNat n v) = v % 2 ^ n := by
  induction n generalizing v with
  | zero => simp [bitsOfNat, natOfBits, Nat.mod_one]
  | succ n ih =>
    have hb : (decide (v % 2 = 1)).toNat = v % 2 := by
      rcases Nat.mod_two_eq_zero_or_one v with h | h <;> simp [h]
    rw [bitsOfNat, natOfBits, ih, hb, pow_succ, Nat.mul_comm (2 ^ n) 2, Nat.mod_mul]

theorem natOfBits_lt (bits : List Bool) : natOfBits bits < 2 ^ bits.length := by
  induction bits with
  | nil => simp [natOfBits]
  | cons b r ih =>
    have hb := Bool.toNat_lt b
    simp only [natOfBits, List.length_cons, pow_succ]
    omega

/-- A list of bits is the bits of the number it stands for. -/
theorem bitsOfNat_natOfBits (bits : List Bool) : bitsOfNat bits.length (natOfBits bits) = bits := by
  induction bits with
  | nil => rfl
  | cons b r ih =>
    have h2 : (b.toNat + 2 * natOfBits r) / 2 = natOfBits r := by
      have := Bool.toNat_lt b
      omega
    have h1 : decide ((b.toNat + 2 * natOfBits r) % 2 = 1) = b := by
      cases b <;> simp [Nat.add_mod]
    rw [natOfBits, List.length_cons, bitsOfNat, h1, h2, ih]

@[simp] theorem bitsOfLevels_map (bits : List Bool) :
    bitsOfLevels (bits.map levelOfBit) = some bits := by
  induction bits with
  | nil => rfl
  | cons b r ih => cases b <;> simp [levelOfBit, bitsOfLevels, ih]

/-- A vector reads as bits only if it is those bits' levels. -/
theorem bitsOfLevels_some {vec : List Level} {bits : List Bool} (h : bitsOfLevels vec = some bits) :
    vec = bits.map levelOfBit := by
  induction vec generalizing bits with
  | nil => simp [bitsOfLevels] at h; simp [← h]
  | cons l r ih =>
    cases l with
    | neither => simp [bitsOfLevels] at h
    | zero =>
      simp only [bitsOfLevels, Option.map_eq_some_iff] at h
      obtain ⟨bs, hb, rfl⟩ := h
      simp [levelOfBit, ih hb]
    | one =>
      simp only [bitsOfLevels, Option.map_eq_some_iff] at h
      obtain ⟨bs, hb, rfl⟩ := h
      simp [levelOfBit, ih hb]

end Sys2Proof
end

