-- ==== Sys2Proof/Laws/Memory.lean ====
section
/-! SUPPORT. The laws of the storage list: read after write, and that a write keeps the canonical
form. -/

namespace Sys2Proof.Machine

open Sys2Proof

section Storage
variable {w : Nat}

theorem Memory.read_erase_same (m : Memory w) (i : Nat) :
    Memory.read (Memory.erase m i) i = Memory.unlisted w := by
  induction m with
  | nil => rfl
  | cons c r ih =>
    by_cases h : c.1 = i
    · simpa [Memory.erase, h] using ih
    · simpa [Memory.erase, h, Memory.read] using ih

theorem Memory.read_erase_other (m : Memory w) {i a : Nat} (h : a ≠ i) :
    Memory.read (Memory.erase m i) a = Memory.read m a := by
  induction m with
  | nil => rfl
  | cons c r ih =>
    by_cases hc : c.1 = i
    · have : c.1 ≠ a := fun e => h (e.symm.trans hc)
      simpa [Memory.erase, Memory.read, hc, Ne.symm h] using ih
    · by_cases ha : c.1 = a
      · simp [Memory.erase, Memory.read, ha, h]
      · simpa [Memory.erase, Memory.read, hc, ha] using ih

theorem Memory.read_insert_other (m : Memory w) {i a : Nat} (v : Record w) (h : a ≠ i) :
    Memory.read (Memory.insert m i v) a = Memory.read m a := by
  induction m with
  | nil => simp [Memory.insert, Memory.read, Ne.symm h]
  | cons c r ih =>
    by_cases hlt : i < c.1
    · simp [Memory.insert, hlt, Memory.read, Ne.symm h]
    · by_cases ha : c.1 = a
      · rw [Memory.insert, if_neg hlt, Memory.read, if_pos ha, Memory.read, if_pos ha]
      · rw [Memory.insert, if_neg hlt, Memory.read, if_neg ha, ih, Memory.read, if_neg ha]

/-- Inserting a slot that the list does not hold makes it read as the inserted record. -/
theorem Memory.read_insert_erased (m : Memory w) (i : Nat) (v : Record w) :
    Memory.read (Memory.insert (Memory.erase m i) i v) i = v := by
  induction m with
  | nil => simp [Memory.erase, Memory.insert, Memory.read]
  | cons c r ih =>
    by_cases hc : c.1 = i
    · simpa [Memory.erase, hc] using ih
    · by_cases hlt : i < c.1
      · simp [Memory.erase, hc, Memory.insert, hlt, Memory.read]
      · simpa [Memory.erase, hc, Memory.insert, hlt, Memory.read] using ih

/-- A slot reads as the record last written to it. -/
@[simp] theorem Memory.read_write_same (m : Memory w) (i : Nat) (v : Record w) :
    Memory.read (Memory.write m i v) i = v := by
  by_cases hv : v = Memory.unlisted w
  · simp [Memory.write, hv, Memory.read_erase_same]
  · simp [Memory.write, hv, Memory.read_insert_erased]

/-- A write leaves every other slot alone. -/
theorem Memory.read_write_other (m : Memory w) {i a : Nat} (v : Record w) (h : a ≠ i) :
    Memory.read (Memory.write m i v) a = Memory.read m a := by
  by_cases hv : v = Memory.unlisted w
  · simp [Memory.write, hv, Memory.read_erase_other m h]
  · simp [Memory.write, hv, Memory.read_insert_other _ v h, Memory.read_erase_other m h]

theorem Memory.risingFrom_mono {lo lo' : Nat} (h : lo' ≤ lo) (m : Memory w)
    (hm : Memory.risingFrom lo m = true) : Memory.risingFrom lo' m = true := by
  cases m with
  | nil => rfl
  | cons c r =>
    simp only [Memory.risingFrom, Bool.and_eq_true, decide_eq_true_eq] at hm ⊢
    exact ⟨le_trans h hm.1, hm.2⟩

theorem Memory.risingFrom_erase (m : Memory w) (i : Nat) {lo : Nat}
    (hm : Memory.risingFrom lo m = true) : Memory.risingFrom lo (Memory.erase m i) = true := by
  induction m generalizing lo with
  | nil => rfl
  | cons c r ih =>
    simp only [Memory.risingFrom, Bool.and_eq_true, decide_eq_true_eq] at hm
    by_cases hc : c.1 = i
    · have := ih (Memory.risingFrom_mono (Nat.le_succ_of_le hm.1) r hm.2)
      simpa [Memory.erase, hc] using this
    · have := ih hm.2
      simp only [Memory.erase] at this
      simp [Memory.erase, hc, Memory.risingFrom, hm.1, this]

theorem Memory.risingFrom_insert (m : Memory w) {i lo : Nat} (v : Record w) (hlo : lo ≤ i)
    (hm : Memory.risingFrom lo m = true) (hi : ∀ c ∈ m, c.1 ≠ i) :
    Memory.risingFrom lo (Memory.insert m i v) = true := by
  induction m generalizing lo with
  | nil => simp [Memory.insert, Memory.risingFrom, hlo]
  | cons c r ih =>
    simp only [Memory.risingFrom, Bool.and_eq_true, decide_eq_true_eq] at hm
    by_cases hlt : i < c.1
    · simp [Memory.insert, hlt, Memory.risingFrom, hlo, hm.2, Nat.succ_le_of_lt hlt]
    · have hne : c.1 ≠ i := hi c (by simp)
      have hle : c.1 + 1 ≤ i := by omega
      have := ih hle hm.2 (fun d hd => hi d (by simp [hd]))
      simp [Memory.insert, hlt, Memory.risingFrom, hm.1, this]

theorem Memory.mem_insert {m : Memory w} {i : Nat} {v : Record w} {c : Nat × Record w}
    (h : c ∈ Memory.insert m i v) : c = (i, v) ∨ c ∈ m := by
  induction m with
  | nil => simpa [Memory.insert] using h
  | cons d r ih =>
    by_cases hlt : i < d.1
    · simpa [Memory.insert, hlt] using h
    · simp only [Memory.insert, hlt, if_false, List.mem_cons] at h ⊢
      rcases h with h | h
      · exact Or.inr (Or.inl h)
      · exact (ih h).imp id Or.inr

theorem Memory.wf_iff {slots : Nat} {m : Memory w} :
    Memory.wf slots m = true ↔
      Memory.risingFrom 0 m = true ∧ ∀ c ∈ m, c.1 < slots ∧ c.2 ≠ Memory.unlisted w := by
  simp [Memory.wf, List.all_eq_true]

/-- The empty list is in canonical form. -/
@[simp] theorem Memory.wf_nil (slots : Nat) : Memory.wf slots ([] : Memory w) = true := rfl

/-- Every write to an existing slot keeps the canonical form. -/
theorem Memory.wf_write {slots : Nat} {m : Memory w} (hm : Memory.wf slots m = true) {i : Nat}
    (hi : i < slots) (v : Record w) : Memory.wf slots (Memory.write m i v) = true := by
  rw [Memory.wf_iff] at hm ⊢
  have herase : ∀ c ∈ Memory.erase m i, c ∈ m ∧ c.1 ≠ i := fun c hc => by
    simpa [Memory.erase] using hc
  by_cases hv : v = Memory.unlisted w
  · simp only [Memory.write, hv, if_true]
    exact ⟨Memory.risingFrom_erase m i hm.1, fun c hc => hm.2 c (herase c hc).1⟩
  · simp only [Memory.write, hv, if_false]
    refine ⟨Memory.risingFrom_insert _ v (Nat.zero_le _) (Memory.risingFrom_erase m i hm.1)
      (fun c hc => (herase c hc).2), fun c hc => ?_⟩
    rcases Memory.mem_insert hc with rfl | hc
    · exact ⟨hi, hv⟩
    · exact hm.2 c (herase c hc).1

end Storage

/-- The memory of the reset state is in canonical form. -/
theorem reset_memory_wf : Memory.wf State.reset.cfg.C State.reset.fifo.storage = true := rfl

end Sys2Proof.Machine
end

