-- ==== Sys2Proof/Laws/State.lean ====
section
/-! SUPPORT. One lemma per field per update: what each named operation leaves in each register. All
hold by definition. A group of registers an operation does not touch has one lemma for the group. -/

namespace Sys2Proof.Machine

open Sys2Proof

section Fields
variable {p : Params}

/-! ### `syncStepW` -/

@[simp] theorem syncStepW_rst (e : Env) (f : Fifo p) : (syncStepW e f).rst = f.rst := rfl
@[simp] theorem syncStepW_wr_wbin (e : Env) (f : Fifo p) :
    (syncStepW e f).wr.wbin = f.wr.wbin := rfl
@[simp] theorem syncStepW_wr_wgray (e : Env) (f : Fifo p) :
    (syncStepW e f).wr.wgray = f.wr.wgray := rfl
@[simp] theorem syncStepW_wr_ovf (e : Env) (f : Fifo p) : (syncStepW e f).wr.ovf = f.wr.ovf := rfl
@[simp] theorem syncStepW_wr_wsyncR (e : Env) (f : Fifo p) :
    (syncStepW e f).wr.wsyncR = f.wr.wsyncR.shift (sample e .rptr f.links.rptr f.rd.rgray) := rfl
@[simp] theorem syncStepW_wr_wsyncU (e : Env) (f : Fifo p) :
    (syncStepW e f).wr.wsyncU = f.wr.wsyncU.shift (sample e .udf f.links.udf f.rd.udf) := rfl
@[simp] theorem syncStepW_wr_wrst (e : Env) (f : Fifo p) :
    (syncStepW e f).wr.wrst = f.wr.wrst := rfl
@[simp] theorem syncStepW_rd (e : Env) (f : Fifo p) : (syncStepW e f).rd = f.rd := rfl
@[simp] theorem syncStepW_links_wptr (e : Env) (f : Fifo p) :
    (syncStepW e f).links.wptr = f.links.wptr := rfl
@[simp] theorem syncStepW_links_ovf (e : Env) (f : Fifo p) :
    (syncStepW e f).links.ovf = f.links.ovf := rfl
@[simp] theorem syncStepW_links_rptr (e : Env) (f : Fifo p) :
    (syncStepW e f).links.rptr = f.links.rptr.sampled := rfl
@[simp] theorem syncStepW_links_udf (e : Env) (f : Fifo p) :
    (syncStepW e f).links.udf = f.links.udf.sampled := rfl
@[simp] theorem syncStepW_links_wRst (e : Env) (f : Fifo p) :
    (syncStepW e f).links.wRst = f.links.wRst := rfl
@[simp] theorem syncStepW_links_rRst (e : Env) (f : Fifo p) :
    (syncStepW e f).links.rRst = f.links.rRst := rfl
@[simp] theorem syncStepW_storage (e : Env) (f : Fifo p) :
    (syncStepW e f).storage = f.storage := rfl

/-! ### `syncStepR` -/

@[simp] theorem syncStepR_rst (e : Env) (f : Fifo p) : (syncStepR e f).rst = f.rst := rfl
@[simp] theorem syncStepR_wr (e : Env) (f : Fifo p) : (syncStepR e f).wr = f.wr := rfl
@[simp] theorem syncStepR_rd_rbin (e : Env) (f : Fifo p) :
    (syncStepR e f).rd.rbin = f.rd.rbin := rfl
@[simp] theorem syncStepR_rd_udf (e : Env) (f : Fifo p) : (syncStepR e f).rd.udf = f.rd.udf := rfl
@[simp] theorem syncStepR_rd_rgray (e : Env) (f : Fifo p) :
    (syncStepR e f).rd.rgray = f.rd.rgray := rfl
@[simp] theorem syncStepR_rd_rsyncW (e : Env) (f : Fifo p) :
    (syncStepR e f).rd.rsyncW = f.rd.rsyncW.shift (sample e .wptr f.links.wptr f.wr.wgray) := rfl
@[simp] theorem syncStepR_rd_rsyncO (e : Env) (f : Fifo p) :
    (syncStepR e f).rd.rsyncO = f.rd.rsyncO.shift (sample e .ovf f.links.ovf f.wr.ovf) := rfl
@[simp] theorem syncStepR_rd_rrst (e : Env) (f : Fifo p) :
    (syncStepR e f).rd.rrst = f.rd.rrst := rfl
@[simp] theorem syncStepR_links_wptr (e : Env) (f : Fifo p) :
    (syncStepR e f).links.wptr = f.links.wptr.sampled := rfl
@[simp] theorem syncStepR_links_ovf (e : Env) (f : Fifo p) :
    (syncStepR e f).links.ovf = f.links.ovf.sampled := rfl
@[simp] theorem syncStepR_links_rptr (e : Env) (f : Fifo p) :
    (syncStepR e f).links.rptr = f.links.rptr := rfl
@[simp] theorem syncStepR_links_udf (e : Env) (f : Fifo p) :
    (syncStepR e f).links.udf = f.links.udf := rfl
@[simp] theorem syncStepR_links_wRst (e : Env) (f : Fifo p) :
    (syncStepR e f).links.wRst = f.links.wRst := rfl
@[simp] theorem syncStepR_links_rRst (e : Env) (f : Fifo p) :
    (syncStepR e f).links.rRst = f.links.rRst := rfl
@[simp] theorem syncStepR_storage (e : Env) (f : Fifo p) :
    (syncStepR e f).storage = f.storage := rfl

/-! ### `releaseStepW` -/

@[simp] theorem releaseStepW_rst (e : Env) (f : Fifo p) : (releaseStepW e f).rst = f.rst := rfl
@[simp] theorem releaseStepW_wr_wbin (e : Env) (f : Fifo p) :
    (releaseStepW e f).wr.wbin = f.wr.wbin := rfl
@[simp] theorem releaseStepW_wr_wgray (e : Env) (f : Fifo p) :
    (releaseStepW e f).wr.wgray = f.wr.wgray := rfl
@[simp] theorem releaseStepW_wr_ovf (e : Env) (f : Fifo p) :
    (releaseStepW e f).wr.ovf = f.wr.wrst.stage (p.NS - 1) := rfl
@[simp] theorem releaseStepW_wr_wsyncR (e : Env) (f : Fifo p) :
    (releaseStepW e f).wr.wsyncR = f.wr.wsyncR := rfl
@[simp] theorem releaseStepW_wr_wsyncU (e : Env) (f : Fifo p) :
    (releaseStepW e f).wr.wsyncU = f.wr.wsyncU := rfl
@[simp] theorem releaseStepW_wr_wrst (e : Env) (f : Fifo p) :
    (releaseStepW e f).wr.wrst = f.wr.wrst.shift (sample e .wRst f.links.wRst f.rst) := rfl
@[simp] theorem releaseStepW_rd (e : Env) (f : Fifo p) : (releaseStepW e f).rd = f.rd := rfl
@[simp] theorem releaseStepW_links_wptr (e : Env) (f : Fifo p) :
    (releaseStepW e f).links.wptr = f.links.wptr := rfl
@[simp] theorem releaseStepW_links_ovf (e : Env) (f : Fifo p) :
    (releaseStepW e f).links.ovf = f.links.ovf.changed f.wr.ovf (f.wr.wrst.stage (p.NS - 1)) := rfl
@[simp] theorem releaseStepW_links_rptr (e : Env) (f : Fifo p) :
    (releaseStepW e f).links.rptr = f.links.rptr := rfl
@[simp] theorem releaseStepW_links_udf (e : Env) (f : Fifo p) :
    (releaseStepW e f).links.udf = f.links.udf := rfl
@[simp] theorem releaseStepW_links_wRst (e : Env) (f : Fifo p) :
    (releaseStepW e f).links.wRst = f.links.wRst.sampled := rfl
@[simp] theorem releaseStepW_links_rRst (e : Env) (f : Fifo p) :
    (releaseStepW e f).links.rRst = f.links.rRst := rfl
@[simp] theorem releaseStepW_storage (e : Env) (f : Fifo p) :
    (releaseStepW e f).storage = f.storage := rfl

/-! ### `releaseStepR` -/

@[simp] theorem releaseStepR_rst (e : Env) (f : Fifo p) : (releaseStepR e f).rst = f.rst := rfl
@[simp] theorem releaseStepR_wr (e : Env) (f : Fifo p) : (releaseStepR e f).wr = f.wr := rfl
@[simp] theorem releaseStepR_rd_rbin (e : Env) (f : Fifo p) :
    (releaseStepR e f).rd.rbin = f.rd.rbin := rfl
@[simp] theorem releaseStepR_rd_udf (e : Env) (f : Fifo p) :
    (releaseStepR e f).rd.udf = f.rd.udf := rfl
@[simp] theorem releaseStepR_rd_rgray (e : Env) (f : Fifo p) :
    (releaseStepR e f).rd.rgray = f.rd.rgray := rfl
@[simp] theorem releaseStepR_rd_rsyncW (e : Env) (f : Fifo p) :
    (releaseStepR e f).rd.rsyncW = f.rd.rsyncW := rfl
@[simp] theorem releaseStepR_rd_rsyncO (e : Env) (f : Fifo p) :
    (releaseStepR e f).rd.rsyncO = f.rd.rsyncO := rfl
@[simp] theorem releaseStepR_rd_rrst (e : Env) (f : Fifo p) :
    (releaseStepR e f).rd.rrst = f.rd.rrst.shift (sample e .rRst f.links.rRst f.rst) := rfl
@[simp] theorem releaseStepR_links_wptr (e : Env) (f : Fifo p) :
    (releaseStepR e f).links.wptr = f.links.wptr := rfl
@[simp] theorem releaseStepR_links_ovf (e : Env) (f : Fifo p) :
    (releaseStepR e f).links.ovf = f.links.ovf := rfl
@[simp] theorem releaseStepR_links_rptr (e : Env) (f : Fifo p) :
    (releaseStepR e f).links.rptr = f.links.rptr := rfl
@[simp] theorem releaseStepR_links_udf (e : Env) (f : Fifo p) :
    (releaseStepR e f).links.udf = f.links.udf := rfl
@[simp] theorem releaseStepR_links_wRst (e : Env) (f : Fifo p) :
    (releaseStepR e f).links.wRst = f.links.wRst := rfl
@[simp] theorem releaseStepR_links_rRst (e : Env) (f : Fifo p) :
    (releaseStepR e f).links.rRst = f.links.rRst.sampled := rfl
@[simp] theorem releaseStepR_storage (e : Env) (f : Fifo p) :
    (releaseStepR e f).storage = f.storage := rfl

/-! ### `storeAndAdvance` -/

@[simp] theorem storeAndAdvance_rst (d : Record p.W) (f : Fifo p) :
    (storeAndAdvance d f).rst = f.rst := rfl
@[simp] theorem storeAndAdvance_wr_wbin (d : Record p.W) (f : Fifo p) :
    (storeAndAdvance d f).wr.wbin = f.wr.wbin + 1#p.AW := rfl
@[simp] theorem storeAndAdvance_wr_wgray (d : Record p.W) (f : Fifo p) :
    (storeAndAdvance d f).wr.wgray = gray (f.wr.wbin + 1#p.AW) := rfl
@[simp] theorem storeAndAdvance_wr_ovf (d : Record p.W) (f : Fifo p) :
    (storeAndAdvance d f).wr.ovf = f.wr.ovf := rfl
@[simp] theorem storeAndAdvance_wr_wsyncR (d : Record p.W) (f : Fifo p) :
    (storeAndAdvance d f).wr.wsyncR = f.wr.wsyncR := rfl
@[simp] theorem storeAndAdvance_wr_wsyncU (d : Record p.W) (f : Fifo p) :
    (storeAndAdvance d f).wr.wsyncU = f.wr.wsyncU := rfl
@[simp] theorem storeAndAdvance_wr_wrst (d : Record p.W) (f : Fifo p) :
    (storeAndAdvance d f).wr.wrst = f.wr.wrst := rfl
@[simp] theorem storeAndAdvance_rd (d : Record p.W) (f : Fifo p) :
    (storeAndAdvance d f).rd = f.rd := rfl
@[simp] theorem storeAndAdvance_links_wptr (d : Record p.W) (f : Fifo p) :
    (storeAndAdvance d f).links.wptr = f.links.wptr.changed f.wr.wgray (gray (f.wr.wbin + 1#p.AW)) := rfl
@[simp] theorem storeAndAdvance_links_ovf (d : Record p.W) (f : Fifo p) :
    (storeAndAdvance d f).links.ovf = f.links.ovf := rfl
@[simp] theorem storeAndAdvance_links_rptr (d : Record p.W) (f : Fifo p) :
    (storeAndAdvance d f).links.rptr = f.links.rptr := rfl
@[simp] theorem storeAndAdvance_links_udf (d : Record p.W) (f : Fifo p) :
    (storeAndAdvance d f).links.udf = f.links.udf := rfl
@[simp] theorem storeAndAdvance_links_wRst (d : Record p.W) (f : Fifo p) :
    (storeAndAdvance d f).links.wRst = f.links.wRst := rfl
@[simp] theorem storeAndAdvance_links_rRst (d : Record p.W) (f : Fifo p) :
    (storeAndAdvance d f).links.rRst = f.links.rRst := rfl
@[simp] theorem storeAndAdvance_storage (d : Record p.W) (f : Fifo p) :
    (storeAndAdvance d f).storage = Memory.write f.storage f.wr.wbin.toNat d := rfl

/-! ### `raiseOverrun` -/

@[simp] theorem raiseOverrun_rst (f : Fifo p) : (raiseOverrun f).rst = f.rst := rfl
@[simp] theorem raiseOverrun_wr_wbin (f : Fifo p) : (raiseOverrun f).wr.wbin = f.wr.wbin := rfl
@[simp] theorem raiseOverrun_wr_wgray (f : Fifo p) : (raiseOverrun f).wr.wgray = f.wr.wgray := rfl
@[simp] theorem raiseOverrun_wr_ovf (f : Fifo p) : (raiseOverrun f).wr.ovf = true := rfl
@[simp] theorem raiseOverrun_wr_wsyncR (f : Fifo p) :
    (raiseOverrun f).wr.wsyncR = f.wr.wsyncR := rfl
@[simp] theorem raiseOverrun_wr_wsyncU (f : Fifo p) :
    (raiseOverrun f).wr.wsyncU = f.wr.wsyncU := rfl
@[simp] theorem raiseOverrun_wr_wrst (f : Fifo p) : (raiseOverrun f).wr.wrst = f.wr.wrst := rfl
@[simp] theorem raiseOverrun_rd (f : Fifo p) : (raiseOverrun f).rd = f.rd := rfl
@[simp] theorem raiseOverrun_links_wptr (f : Fifo p) :
    (raiseOverrun f).links.wptr = f.links.wptr := rfl
@[simp] theorem raiseOverrun_links_ovf (f : Fifo p) :
    (raiseOverrun f).links.ovf = f.links.ovf.changed f.wr.ovf true := rfl
@[simp] theorem raiseOverrun_links_rptr (f : Fifo p) :
    (raiseOverrun f).links.rptr = f.links.rptr := rfl
@[simp] theorem raiseOverrun_links_udf (f : Fifo p) :
    (raiseOverrun f).links.udf = f.links.udf := rfl
@[simp] theorem raiseOverrun_links_wRst (f : Fifo p) :
    (raiseOverrun f).links.wRst = f.links.wRst := rfl
@[simp] theorem raiseOverrun_links_rRst (f : Fifo p) :
    (raiseOverrun f).links.rRst = f.links.rRst := rfl
@[simp] theorem raiseOverrun_storage (f : Fifo p) : (raiseOverrun f).storage = f.storage := rfl

/-! ### `consumeAndAdvance` -/

@[simp] theorem consumeAndAdvance_rst (f : Fifo p) : (consumeAndAdvance f).rst = f.rst := rfl
@[simp] theorem consumeAndAdvance_wr (f : Fifo p) : (consumeAndAdvance f).wr = f.wr := rfl
@[simp] theorem consumeAndAdvance_rd_rbin (f : Fifo p) :
    (consumeAndAdvance f).rd.rbin = f.rd.rbin + 1#p.AW := rfl
@[simp] theorem consumeAndAdvance_rd_udf (f : Fifo p) : (consumeAndAdvance f).rd.udf = false := rfl
@[simp] theorem consumeAndAdvance_rd_rgray (f : Fifo p) :
    (consumeAndAdvance f).rd.rgray = gray (f.rd.rbin + 1#p.AW) := rfl
@[simp] theorem consumeAndAdvance_rd_rsyncW (f : Fifo p) :
    (consumeAndAdvance f).rd.rsyncW = f.rd.rsyncW := rfl
@[simp] theorem consumeAndAdvance_rd_rsyncO (f : Fifo p) :
    (consumeAndAdvance f).rd.rsyncO = f.rd.rsyncO := rfl
@[simp] theorem consumeAndAdvance_rd_rrst (f : Fifo p) :
    (consumeAndAdvance f).rd.rrst = f.rd.rrst := rfl
@[simp] theorem consumeAndAdvance_links_wptr (f : Fifo p) :
    (consumeAndAdvance f).links.wptr = f.links.wptr := rfl
@[simp] theorem consumeAndAdvance_links_ovf (f : Fifo p) :
    (consumeAndAdvance f).links.ovf = f.links.ovf := rfl
@[simp] theorem consumeAndAdvance_links_rptr (f : Fifo p) :
    (consumeAndAdvance f).links.rptr = f.links.rptr.changed f.rd.rgray (gray (f.rd.rbin + 1#p.AW)) := rfl
@[simp] theorem consumeAndAdvance_links_udf (f : Fifo p) :
    (consumeAndAdvance f).links.udf = f.links.udf.changed f.rd.udf false := rfl
@[simp] theorem consumeAndAdvance_links_wRst (f : Fifo p) :
    (consumeAndAdvance f).links.wRst = f.links.wRst := rfl
@[simp] theorem consumeAndAdvance_links_rRst (f : Fifo p) :
    (consumeAndAdvance f).links.rRst = f.links.rRst := rfl
@[simp] theorem consumeAndAdvance_storage (f : Fifo p) :
    (consumeAndAdvance f).storage = f.storage := rfl

/-! ### `raiseUnderrun` -/

@[simp] theorem raiseUnderrun_rst (f : Fifo p) : (raiseUnderrun f).rst = f.rst := rfl
@[simp] theorem raiseUnderrun_wr (f : Fifo p) : (raiseUnderrun f).wr = f.wr := rfl
@[simp] theorem raiseUnderrun_rd_rbin (f : Fifo p) : (raiseUnderrun f).rd.rbin = f.rd.rbin := rfl
@[simp] theorem raiseUnderrun_rd_udf (f : Fifo p) : (raiseUnderrun f).rd.udf = true := rfl
@[simp] theorem raiseUnderrun_rd_rgray (f : Fifo p) : (raiseUnderrun f).rd.rgray = f.rd.rgray := rfl
@[simp] theorem raiseUnderrun_rd_rsyncW (f : Fifo p) :
    (raiseUnderrun f).rd.rsyncW = f.rd.rsyncW := rfl
@[simp] theorem raiseUnderrun_rd_rsyncO (f : Fifo p) :
    (raiseUnderrun f).rd.rsyncO = f.rd.rsyncO := rfl
@[simp] theorem raiseUnderrun_rd_rrst (f : Fifo p) : (raiseUnderrun f).rd.rrst = f.rd.rrst := rfl
@[simp] theorem raiseUnderrun_links_wptr (f : Fifo p) :
    (raiseUnderrun f).links.wptr = f.links.wptr := rfl
@[simp] theorem raiseUnderrun_links_ovf (f : Fifo p) :
    (raiseUnderrun f).links.ovf = f.links.ovf := rfl
@[simp] theorem raiseUnderrun_links_rptr (f : Fifo p) :
    (raiseUnderrun f).links.rptr = f.links.rptr := rfl
@[simp] theorem raiseUnderrun_links_udf (f : Fifo p) :
    (raiseUnderrun f).links.udf = f.links.udf.changed f.rd.udf true := rfl
@[simp] theorem raiseUnderrun_links_wRst (f : Fifo p) :
    (raiseUnderrun f).links.wRst = f.links.wRst := rfl
@[simp] theorem raiseUnderrun_links_rRst (f : Fifo p) :
    (raiseUnderrun f).links.rRst = f.links.rRst := rfl
@[simp] theorem raiseUnderrun_storage (f : Fifo p) : (raiseUnderrun f).storage = f.storage := rfl

/-! ### `dropReset` -/

@[simp] theorem dropReset_rst (f : Fifo p) : (dropReset f).rst = false := rfl
@[simp] theorem dropReset_wr (f : Fifo p) : (dropReset f).wr = f.wr := rfl
@[simp] theorem dropReset_rd (f : Fifo p) : (dropReset f).rd = f.rd := rfl
@[simp] theorem dropReset_links_wptr (f : Fifo p) : (dropReset f).links.wptr = f.links.wptr := rfl
@[simp] theorem dropReset_links_ovf (f : Fifo p) : (dropReset f).links.ovf = f.links.ovf := rfl
@[simp] theorem dropReset_links_rptr (f : Fifo p) : (dropReset f).links.rptr = f.links.rptr := rfl
@[simp] theorem dropReset_links_udf (f : Fifo p) : (dropReset f).links.udf = f.links.udf := rfl
@[simp] theorem dropReset_links_wRst (f : Fifo p) :
    (dropReset f).links.wRst = f.links.wRst.changed f.rst false := rfl
@[simp] theorem dropReset_links_rRst (f : Fifo p) :
    (dropReset f).links.rRst = f.links.rRst.changed f.rst false := rfl
@[simp] theorem dropReset_storage (f : Fifo p) : (dropReset f).storage = f.storage := rfl

/-! ### `forceReset` -/

@[simp] theorem forceReset_rst (f : Fifo p) : (forceReset f).rst = true := rfl
@[simp] theorem forceReset_wr_wbin (f : Fifo p) : (forceReset f).wr.wbin = 0#p.AW := rfl
@[simp] theorem forceReset_wr_wgray (f : Fifo p) : (forceReset f).wr.wgray = 0#p.AW := rfl
@[simp] theorem forceReset_wr_ovf (f : Fifo p) : (forceReset f).wr.ovf = true := rfl
@[simp] theorem forceReset_wr_wsyncR (f : Fifo p) : (forceReset f).wr.wsyncR = Chain.fill 0#p.AW := rfl
@[simp] theorem forceReset_wr_wsyncU (f : Fifo p) :
    (forceReset f).wr.wsyncU = Chain.fill false := rfl
@[simp] theorem forceReset_wr_wrst (f : Fifo p) : (forceReset f).wr.wrst = Chain.fill true := rfl
@[simp] theorem forceReset_rd_rbin (f : Fifo p) : (forceReset f).rd.rbin = 0#p.AW := rfl
@[simp] theorem forceReset_rd_udf (f : Fifo p) : (forceReset f).rd.udf = false := rfl
@[simp] theorem forceReset_rd_rgray (f : Fifo p) : (forceReset f).rd.rgray = 0#p.AW := rfl
@[simp] theorem forceReset_rd_rsyncW (f : Fifo p) : (forceReset f).rd.rsyncW = Chain.fill 0#p.AW := rfl
@[simp] theorem forceReset_rd_rsyncO (f : Fifo p) :
    (forceReset f).rd.rsyncO = Chain.fill true := rfl
@[simp] theorem forceReset_rd_rrst (f : Fifo p) : (forceReset f).rd.rrst = Chain.fill true := rfl
@[simp] theorem forceReset_links_wptr (f : Fifo p) : (forceReset f).links.wptr = ⟨0#p.AW, false⟩ := rfl
@[simp] theorem forceReset_links_ovf (f : Fifo p) : (forceReset f).links.ovf = ⟨true, false⟩ := rfl
@[simp] theorem forceReset_links_rptr (f : Fifo p) : (forceReset f).links.rptr = ⟨0#p.AW, false⟩ := rfl
@[simp] theorem forceReset_links_udf (f : Fifo p) : (forceReset f).links.udf = ⟨false, false⟩ := rfl
@[simp] theorem forceReset_links_wRst (f : Fifo p) :
    (forceReset f).links.wRst = ⟨true, false⟩ := rfl
@[simp] theorem forceReset_links_rRst (f : Fifo p) :
    (forceReset f).links.rRst = ⟨true, false⟩ := rfl
@[simp] theorem forceReset_storage (f : Fifo p) : (forceReset f).storage = f.storage := rfl

end Fields

/-! ### Updates of the whole machine -/

@[simp] theorem withEvents_cfg (s : State) (evs : List PinEvent) : (s.withEvents evs).cfg = s.cfg := rfl
@[simp] theorem withEvents_fifo (s : State) (evs : List PinEvent) : (s.withEvents evs).fifo = s.fifo := rfl
@[simp] theorem withEvents_pending (s : State) (evs : List PinEvent) :
    (s.withEvents evs).env.pending = evs ++ s.env.pending := rfl
@[simp] theorem withEvents_draw (s : State) (evs : List PinEvent) :
    (s.withEvents evs).env.draw = s.env.draw := rfl
@[simp] theorem withEvents_tick (s : State) (evs : List PinEvent) :
    (s.withEvents evs).env.tick = s.env.tick := rfl
@[simp] theorem resetOf_cfg (p : Params) : (State.resetOf p).cfg = p := rfl
@[simp] theorem resetOf_fifo (p : Params) : (State.resetOf p).fifo = Fifo.reset p := rfl

end Sys2Proof.Machine
end

