-- ==== Sys2Proof/Laws/Edges.lean ====
section
/-! SUPPORT. What an edge, an operation and a step can do, each said once: the case an edge takes, and
one inversion lemma for `exec` and for `step`. -/

namespace Sys2Proof.Machine

open Sys2Proof

section Cases
variable {p : Params}

/-! ### The case of an edge (30_encoding.md R75) -/

theorem writeCase_held {f : Fifo p} (en : Bool) (h : f.rst = true) : f.writeCase en = .held := by
  simp [Fifo.writeCase, h]

theorem writeCase_releasing {f : Fifo p} (en : Bool) (h : f.rst = false) (hr : f.wInReset = true) :
    f.writeCase en = .releasing := by simp [Fifo.writeCase, h, hr]

theorem writeCase_idle {f : Fifo p} (h : f.rst = false) (hr : f.wInReset = false) :
    f.writeCase false = .idle := by simp [Fifo.writeCase, h, hr]

theorem writeCase_rejectedLatched {f : Fifo p} (h : f.rst = false) (hr : f.wInReset = false)
    (ho : f.wr.ovf = true) : f.writeCase true = .rejectedLatched := by
  simp [Fifo.writeCase, h, hr, ho]

theorem writeCase_rejectedFull {f : Fifo p} (h : f.rst = false) (hr : f.wInReset = false)
    (ho : f.wr.ovf = false) (hw : f.writableW = 0#p.AW) : f.writeCase true = .rejectedFull := by
  simp [Fifo.writeCase, h, hr, ho, hw]

theorem writeCase_accepted {f : Fifo p} (h : f.rst = false) (hr : f.wInReset = false)
    (ho : f.wr.ovf = false) (hw : f.writableW ≠ 0#p.AW) : f.writeCase true = .accepted := by
  simp [Fifo.writeCase, h, hr, ho, hw]

theorem readCase_held {f : Fifo p} (en : Bool) (h : f.rst = true) : f.readCase en = .held := by
  simp [Fifo.readCase, h]

theorem readCase_releasing {f : Fifo p} (en : Bool) (h : f.rst = false) (hr : f.rInReset = true) :
    f.readCase en = .releasing := by simp [Fifo.readCase, h, hr]

theorem readCase_idle {f : Fifo p} (h : f.rst = false) (hr : f.rInReset = false) :
    f.readCase false = .idle := by simp [Fifo.readCase, h, hr]

theorem readCase_rejectedEmpty {f : Fifo p} (h : f.rst = false) (hr : f.rInReset = false)
    (he : f.readableR = 0#p.AW) : f.readCase true = .rejectedEmpty := by
  simp [Fifo.readCase, h, hr, he]

theorem readCase_accepted {f : Fifo p} (h : f.rst = false) (hr : f.rInReset = false)
    (he : f.readableR ≠ 0#p.AW) : f.readCase true = .accepted := by
  simp [Fifo.readCase, h, hr, he]

/-- Everything a `wr_clk` edge can do (40_write_port.md R100), with the condition of each case. -/
theorem writeEdge_cases (e : Env) (f : Fifo p) (en : Bool) (d : Record p.W) :
    (f.rst = true ∧ writeEdge e f en d = f) ∨
    (f.rst = false ∧ f.wInReset = true ∧ writeEdge e f en d = releaseStepW e f) ∨
    (f.rst = false ∧ f.wInReset = false ∧
      ((en = false ∧ writeEdge e f en d = syncStepW e f) ∨
       (en = true ∧ f.wr.ovf = true ∧ writeEdge e f en d = syncStepW e f) ∨
       (en = true ∧ f.wr.ovf = false ∧ f.writableW = 0#p.AW ∧
          writeEdge e f en d = raiseOverrun (syncStepW e f)) ∨
       (en = true ∧ f.wr.ovf = false ∧ f.writableW ≠ 0#p.AW ∧
          writeEdge e f en d = storeAndAdvance d (syncStepW e f)))) := by
  unfold writeEdge
  cases hrst : f.rst
  · cases hres : f.wInReset
    · cases en
      · simp [writeCase_idle hrst hres]
      · cases ho : f.wr.ovf
        · by_cases hw : f.writableW = 0#p.AW
          · simp [writeCase_rejectedFull hrst hres ho hw, hw]
          · simp [writeCase_accepted hrst hres ho hw, hw]
        · simp [writeCase_rejectedLatched hrst hres ho]
    · simp [writeCase_releasing en hrst hres]
  · simp [writeCase_held en hrst]

/-- Everything an `rd_clk` edge can do (41_read_port.md R120), with the condition of each case. -/
theorem readEdge_cases (e : Env) (f : Fifo p) (en : Bool) :
    (f.rst = true ∧ readEdge e f en = f) ∨
    (f.rst = false ∧ f.rInReset = true ∧ readEdge e f en = releaseStepR e f) ∨
    (f.rst = false ∧ f.rInReset = false ∧
      ((en = false ∧ readEdge e f en = syncStepR e f) ∨
       (en = true ∧ f.readableR = 0#p.AW ∧ readEdge e f en = raiseUnderrun (syncStepR e f)) ∨
       (en = true ∧ f.readableR ≠ 0#p.AW ∧ readEdge e f en = consumeAndAdvance (syncStepR e f)))) := by
  unfold readEdge
  cases hrst : f.rst
  · cases hres : f.rInReset
    · cases en
      · simp [readCase_idle hrst hres]
      · by_cases he : f.readableR = 0#p.AW
        · simp [readCase_rejectedEmpty hrst hres he, he]
        · simp [readCase_accepted hrst hres he, he]
    · simp [readCase_releasing en hrst hres]
  · simp [readCase_held en hrst]

/-! ### Each operation -/

theorem exec_push {f : Fifo p} {e : Env} {d : Nat} (hd : d < 2 ^ p.W) :
    exec (.push d) ⟨p, f, e⟩ = .next ⟨p, writeEdge e f true (BitVec.ofNat p.W d), e⟩ := by
  simp [exec, execPush, hd]

theorem exec_push_wide {f : Fifo p} {e : Env} {d : Nat} (hd : ¬ d < 2 ^ p.W) :
    exec (.push d) ⟨p, f, e⟩ = .refused .recordTooWide := by simp [exec, execPush, hd]

theorem exec_widle (f : Fifo p) (e : Env) (x : Nat) :
    exec (.widle x) ⟨p, f, e⟩ = .next ⟨p, writeEdge e f false (BitVec.ofNat p.W x), e⟩ := rfl

theorem exec_pop (f : Fifo p) (e : Env) :
    exec .pop ⟨p, f, e⟩ = .next ⟨p, readEdge e f true, e⟩ := rfl

theorem exec_ridle (f : Fifo p) (e : Env) :
    exec .ridle ⟨p, f, e⟩ = .next ⟨p, readEdge e f false, e⟩ := rfl

theorem exec_rstAssert (f : Fifo p) (e : Env) :
    exec .rstAssert ⟨p, f, e⟩ = .next ⟨p, if f.rst then f else forceReset f, e⟩ := by
  cases h : f.rst <;> simp [exec, execRstAssert, h]

theorem exec_rstRelease (f : Fifo p) (e : Env) :
    exec .rstRelease ⟨p, f, e⟩ = .next ⟨p, if f.rst then dropReset f else f, e⟩ := by
  cases h : f.rst <;> simp [exec, execRstRelease, h]

end Cases

/-- Everything an operation can do when it answers a next state: the block changes by one edge or one
change of `rst`, the parameters and the environment not at all. -/
theorem exec_next_cases {i : Instr} {s t : State} (h : exec i s = .next t) :
    ∃ g : Fifo s.cfg, t = ⟨s.cfg, g, s.env⟩ ∧
      ((∃ d, i = .push d ∧ d < 2 ^ s.cfg.W ∧
          g = writeEdge s.env s.fifo true (BitVec.ofNat s.cfg.W d)) ∨
       (∃ x, i = .widle x ∧ g = writeEdge s.env s.fifo false (BitVec.ofNat s.cfg.W x)) ∨
       (i = .pop ∧ g = readEdge s.env s.fifo true) ∨
       (i = .ridle ∧ g = readEdge s.env s.fifo false) ∨
       (i = .rstAssert ∧ g = if s.fifo.rst then s.fifo else forceReset s.fifo) ∨
       (i = .rstRelease ∧ g = if s.fifo.rst then dropReset s.fifo else s.fifo)) := by
  obtain ⟨p, f, e⟩ := s
  cases i with
  | push d =>
    by_cases hd : d < 2 ^ p.W
    · rw [exec_push hd] at h
      cases h
      exact ⟨_, rfl, Or.inl ⟨d, rfl, hd, rfl⟩⟩
    · rw [exec_push_wide hd] at h
      cases h
  | widle x =>
    rw [exec_widle] at h
    cases h
    exact ⟨_, rfl, Or.inr (Or.inl ⟨x, rfl, rfl⟩)⟩
  | pop =>
    rw [exec_pop] at h
    cases h
    exact ⟨_, rfl, Or.inr (Or.inr (Or.inl ⟨rfl, rfl⟩))⟩
  | ridle =>
    rw [exec_ridle] at h
    cases h
    exact ⟨_, rfl, Or.inr (Or.inr (Or.inr (Or.inl ⟨rfl, rfl⟩)))⟩
  | rstAssert =>
    rw [exec_rstAssert] at h
    cases h
    exact ⟨_, rfl, Or.inr (Or.inr (Or.inr (Or.inr (Or.inl ⟨rfl, rfl⟩))))⟩
  | rstRelease =>
    rw [exec_rstRelease] at h
    cases h
    exact ⟨_, rfl, Or.inr (Or.inr (Or.inr (Or.inr (Or.inr ⟨rfl, rfl⟩))))⟩

/-- Everything a step can do when it answers a next state: wait, or run the decoded operation of the
oldest event. -/
theorem step_next_cases {s t : State} (h : step s = .next t) :
    (s.env.pending = [] ∧ t = s) ∨
    ∃ ev rest i, s.env.pending = ev :: rest ∧ decode s.cfg.W ev = .ok i ∧
      exec i ⟨s.cfg, s.fifo, ⟨rest, ev.drawSel, s.env.tick + 1⟩⟩ = .next t := by
  obtain ⟨p, f, pending, draw, tick⟩ := s
  cases pending with
  | nil => exact Or.inl ⟨rfl, by simpa [step, fetch] using h.symm⟩
  | cons ev rest =>
    cases hdec : decode p.W ev with
    | error r => simp [step, fetch, hdec] at h
    | ok i => exact Or.inr ⟨ev, rest, i, rfl, hdec, by simpa [step, fetch, hdec] using h⟩

end Sys2Proof.Machine
end

