-- ==== Sys2Proof/Laws/PerInstr.lean ====
section
/-! SUPPORT. Facts proved operation by operation. Family `EncodeWidth`: the encoder gives every
operation a vector of its port's width (30_encoding.md R82). -/

namespace Sys2Proof.Laws.EncodeWidth

open Sys2Proof

/-- The vector of an operation has the width of its port. -/
def Statement (i : Instr) : Prop := ∀ w, (encodeBits w i).length = i.format.width w

theorem push (d : Nat) : Statement (.push d) := fun w => by
  simp [encodeBits, Instr.format, Format.width]

theorem widle (x : Nat) : Statement (.widle x) := fun w => by
  simp [encodeBits, Instr.format, Format.width]

theorem pop : Statement .pop := fun _ => rfl

theorem ridle : Statement .ridle := fun _ => rfl

theorem rstAssert : Statement .rstAssert := fun _ => rfl

theorem rstRelease : Statement .rstRelease := fun _ => rfl

end Sys2Proof.Laws.EncodeWidth
end

