-- ==== Sys2Proof/Laws/Runs.lean ====
section
/-! SUPPORT. Runs: one step at a time, joined end to end, and as the host's interface runs the
machine. -/

namespace Sys2Proof.Machine

open Sys2Proof

@[simp] theorem run_zero (s : State) : run 0 s = .next s := rfl

/-- A run that starts with a step that has a next state. -/
theorem run_succ_next {k : Nat} {s t : State} (h : step s = .next t) : run (k + 1) s = run k t := by
  simp [run, h]

/-- A run that has a next state starts with a step that has one. -/
theorem run_succ_cases {k : Nat} {s t : State} (h : run (k + 1) s = .next t) :
    ∃ u, step s = .next u ∧ run k u = .next t := by
  unfold run at h
  split at h
  · exact ⟨_, ‹_›, h⟩
  · cases h
  · cases h

/-- Two runs, joined end to end. -/
theorem run_add {j k : Nat} {s t : State} (h : run j s = .next t) : run (j + k) s = run k t := by
  induction j generalizing s with
  | zero => cases h; rw [Nat.zero_add]
  | succ j ih =>
    obtain ⟨u, hu, hr⟩ := run_succ_cases h
    rw [Nat.succ_add_eq_add_succ, Nat.add_succ, run_succ_next hu, ih hr]

/-- The run of the host's interface. -/
theorem run_eq_core_run (k : Nat) (s : State) : run k s = Host.Core.run Sys2Proof.core k s := by
  induction k generalizing s with
  | zero => rfl
  | succ k ih =>
    have hstep : Sys2Proof.core.step s = step s := rfl
    simp only [run, Host.Core.run]
    rw [hstep]
    cases step s with
    | next t => exact ih t
    | fault r => rfl
    | refused r => rfl

@[simp] theorem lineEvents_nil (p : Params) : lineEvents p [] = [] := rfl

@[simp] theorem lineEvents_cons (p : Params) (l : StimLine) (ls : List StimLine) :
    lineEvents p (l :: ls) = l.event p.W :: lineEvents p ls := rfl

@[simp] theorem lineEvents_append (p : Params) (as bs : List StimLine) :
    lineEvents p (as ++ bs) = lineEvents p as ++ lineEvents p bs := List.map_append

end Sys2Proof.Machine
end

