-- ==== Sys2Proof/Tests/Slice0.lean ====
section
/-! SUPPORT. Tests. Expected values are those of 95_test_vectors.md (the vector is named at each test)
or are worked out by hand from the rule named; and, for every statement with hypotheses, a witness that
they can be met together. -/

namespace Sys2Proof.Tests

open Sys2Proof Sys2Proof.Machine

/-- The configuration of the test vectors: `W = 8`, `AW = 3`, `NS = 2`. -/
abbrev tp : Params := Config.testVectors

/-- An index of the test configuration. -/
abbrev ix (n : Nat) : Index tp.AW := BitVec.ofNat tp.AW n

/-- A gray code of the test configuration, from its bits. -/
abbrev gc (n : Nat) : Gray tp.AW := BitVec.ofNat tp.AW n

/-- A chain of two stages, stage 1 first. -/
abbrev ch {α : Type} (a b : α) : Chain α tp.NS := ⟨[a, b], rfl⟩

/-- The gray codes of V-GRAY-1, in order. -/
def grayTable : List Nat := [0, 1, 3, 2, 6, 7, 5, 4]

/-- The gray code of an index, from V-GRAY-1. -/
def tg (n : Nat) : Gray tp.AW := gc (grayTable.getD n 0)

/-- A settled block out of reset. -/
def settledAt (wb rb : Nat) (ovf udf : Bool) (m : Memory tp.W) : Fifo tp where
  rst := false
  wr := {
    wbin := ix wb, wgray := tg wb, ovf := ovf
    wsyncR := ch (tg rb) (tg rb), wsyncU := ch udf udf, wrst := ch false false }
  rd := {
    rbin := ix rb, udf := udf, rgray := tg rb
    rsyncW := ch (tg wb) (tg wb), rsyncO := ch ovf ovf, rrst := ch false false }
  storage := m
  links := {
    wptr := ⟨tg wb, false⟩, ovf := ⟨ovf, false⟩, rptr := ⟨tg rb, false⟩, udf := ⟨udf, false⟩
    wRst := ⟨true, false⟩, rRst := ⟨true, false⟩ }

/-- A block with a crossing under way in both directions: writes 5 and 6 not seen by the read side, the
last pop not seen by the write side. -/
def crossing : Fifo tp :=
  let f := settledAt 6 2 false false [(2, 0x12#8), (3, 0x13#8), (4, 0x14#8), (5, 0x15#8)]
  { f with
    wr := { f.wr with wsyncR := ch (tg 2) (tg 1) }
    rd := { f.rd with rsyncW := ch (tg 5) (tg 4) }
    links := { f.links with wptr := ⟨tg 5, true⟩ } }

/-- A block releasing from reset: `rst = 0`, both chains half shifted, the write side one edge away. -/
def releasing : Fifo tp :=
  let f := Fifo.reset tp
  { f with
    rst := false
    wr := { f.wr with wrst := ch false true }
    rd := { f.rd with rrst := ch false true } }

/-- A machine with a block, waiting events and no draw directive. -/
def st (f : Fifo tp) (evs : List PinEvent) : State := ⟨tp, f, ⟨evs, .free, 0⟩⟩

/-- An outcome is a next state with a property. -/
def nextHas (o : Host.Outcome State Fault Refusal) (q : State → Bool) : Bool :=
  match o with
  | .next t => q t
  | .fault _ => false
  | .refused _ => false

/-! ## Well-formedness -/

theorem test_push_record_too_wide_ill_formed : Instr.wf 8 (.push 0x100) = false := by decide
theorem test_push_widest_record_well_formed : Instr.wf 8 (.push 0xFF) = true := by decide
theorem test_widle_record_too_wide_ill_formed : Instr.wf 8 (.widle 0x100) = false := by decide
theorem test_event_with_broken_setup_ill_formed :
    PinEvent.wf 8 (.rdEdge [.one] .setupHoldBroken .free) = false := by decide
theorem test_event_with_runt_pulse_ill_formed : PinEvent.wf 8 (.rstLevel [.one] .runt) = false := by decide
theorem test_event_of_wrong_width_ill_formed :
    PinEvent.wf 8 (.wrEdge [.one] .met .free) = false := by decide
theorem test_event_not_binary_ill_formed : PinEvent.wf 8 (.rstLevel [.neither] .met) = false := by decide
/-- 00_scope.md R9. -/
theorem test_construct_refuses_no_record_bits : Params.construct 0 3 2 = .error .recordWidth := by decide
/-- 00_scope.md R6, 92_eei_decisions.md D23. -/
theorem test_construct_refuses_capacity_one : Params.construct 8 0 2 = .error .indexWidth := by decide
/-- 00_scope.md R8. -/
theorem test_construct_refuses_one_stage : Params.construct 8 3 1 = .error .syncStages := by decide
/-- 00_scope.md R7: the byte-stream block and a frame of 3 values of 16 bits. -/
theorem test_instances : (Config.byteStream 3 2 = .ok tp) ∧
    ((Config.frame 3 16 4 2).toOption.map Params.W = some 48) := by decide

/-! ## Decoding -/

/-- V-ENC-1, `W 0x41`: `1_01000001`, written bit 0 first. -/
theorem test_decode_push :
    decode 8 (.wrEdge [.one, .zero, .zero, .zero, .zero, .zero, .one, .zero, .one] .met .free)
      = .ok (.push 0x41) := by decide
/-- V-ENC-1, `W -`, the vector `0x0FF`. -/
theorem test_decode_widle :
    decode 8 (.wrEdge [.one, .one, .one, .one, .one, .one, .one, .one, .zero] .met .free)
      = .ok (.widle 0xFF) := by decide
/-- V-ENC-1. -/
theorem test_decode_pop : decode 8 (.rdEdge [.one] .met .old) = .ok .pop := by decide
/-- V-ENC-1. -/
theorem test_decode_ridle : decode 8 (.rdEdge [.zero] .met .new) = .ok .ridle := by decide
/-- V-ENC-1. -/
theorem test_decode_rst_assert : decode 8 (.rstLevel [.one] .met) = .ok .rstAssert := by decide
/-- V-ENC-1. -/
theorem test_decode_rst_release : decode 8 (.rstLevel [.zero] .met) = .ok .rstRelease := by decide
/-- 30_encoding.md R72 with `W = 3`: `wr_en` is bit 3. -/
theorem test_decode_push_other_width :
    decode 3 (.wrEdge [.zero, .one, .one, .one] .met .free) = .ok (.push 6) := by decide
/-- 30_encoding.md R82: a `WPORT` vector of 8 bits is on no port of `W = 8`. -/
theorem test_decode_rejects_width :
    decode 8 (.wrEdge [.one, .one, .one, .one, .one, .one, .one, .one] .met .free)
      = .error .vectorWidth := by decide
/-- 30_encoding.md R71. -/
theorem test_decode_rejects_level : decode 8 (.rdEdge [.neither] .met .free) = .error .inputNotBinary := by
  decide
/-- 30_encoding.md R71. -/
theorem test_decode_rejects_setup_hold :
    decode 8 (.rdEdge [.one] .setupHoldBroken .free) = .error .setupHold := by decide
/-- 93_implementation_defined.md U5. -/
theorem test_decode_rejects_unresolved_stage :
    decode 8 (.rdEdge [.one] .unresolvedStage .free) = .error .synchronizerFailure := by decide
/-- 70_reset_and_hazards.md R189. -/
theorem test_decode_rejects_runt : decode 8 (.rstLevel [.one] .runt) = .error .runtPulse := by decide

/-- The encoder on V-ENC-1, `W 0x41`. -/
theorem test_encode_push : encode 8 (.push 0x41) =
    .wrEdge [.one, .zero, .zero, .zero, .zero, .zero, .one, .zero, .one] .met .free := by decide

/-- The table's words: 9 bits in two bytes, 1 bit in one byte; padding bits stand on no wire. -/
theorem test_table_words : decodeTableWord 16 0x141 = some (.push 0x41) ∧
    decodeTableWord 16 0x0FF = some (.widle 0xFF) ∧ decodeTableWord 8 1 = some .pop ∧
    decodeTableWord 8 0 = some .ridle ∧ decodeTableWord 16 0xFF41 = some (.push 0x41) ∧
    decodeTableWord 32 1 = none := by decide

/-- The word of a table row is the next operation. -/
theorem test_with_fetch_word : (nextInstr (State.reset.withFetchWord 16 0x141) = some (.push 0x41)) ∧
    (nextInstr (State.reset.withFetchWord 8 0) = some .ridle) := by decide

/-! ## Gray code -/

/-- V-GRAY-1. -/
theorem test_gray_table : (List.range 8).map (fun b => (gray (ix b)).toNat) = grayTable := by decide
/-- V-GRAY-1. -/
theorem test_bin_table : grayTable.map (fun g => (bin (gc g)).toNat) = List.range 8 := by decide
/-- V-GRAY-2: `gray(7) = 0100`, `gray(8) = 1100`, `gray(15) = 1000`, `bin(1010) = 1100`. -/
theorem test_gray_four_bits : gray 7#4 = 0b0100#4 ∧ gray 8#4 = 0b1100#4 ∧ gray 15#4 = 0b1000#4 ∧
    bin 0b1010#4 = 0b1100#4 := by decide
/-- V-GRAY-3. -/
theorem test_gray_one_bit : gray 0#1 = 0#1 ∧ gray 1#1 = 1#1 := by decide

/-! ## Counts and spans -/

/-- `readable_r`, `writable_w`, `rd_span`, `wr_span`, `rd_empty`, `wr_full` of a settled block. -/
def countRow (wb rb : Nat) : List Nat × Bool × Bool :=
  let o := (st (settledAt wb rb false false []) []).outputs 0
  ([o.rdCount.toNat, o.wrCount.toNat, o.rdSpan.toNat, o.wrSpan.toNat], o.rdEmpty, o.wrFull)

/-- V-COUNT, the rows with a cut span, the empty row and the full row. -/
theorem test_counts : countRow 5 2 = ([3, 4, 3, 3], false, false) ∧
    countRow 1 6 = ([3, 4, 2, 4], false, false) ∧ countRow 3 3 = ([0, 7, 0, 5], true, false) ∧
    countRow 2 3 = ([7, 0, 5, 0], false, true) := by decide

/-- V-RSTOUT. -/
theorem test_status_in_reset : (Fifo.reset tp).wstatus = 0b0100#4 ∧ (Fifo.reset tp).rstatus = 0b1010#4 := by
  decide

/-- V-READY: overrun latched, room left; and a pop allowed while `rd_overrun = 1`. -/
theorem test_ready : (settledAt 2 6 true false []).wrReady = false ∧
    (settledAt 2 6 true false []).wrFull = false ∧ (settledAt 2 6 true false []).rdReady = true := by decide

/-! ## The write port -/

/-- V-PUSH-2. -/
theorem test_push_accepted : nextHas (exec (.push 0x5A) (st (settledAt 3 0 false false []) []))
    (fun t => t.fifo.wr.wbin.toNat == 4 && t.fifo.wr.wgray.toNat == 0b110 && !t.fifo.wr.ovf &&
      t.fifo.storage.map (fun c => (c.1, c.2.toNat)) == [(3, 0x5A)] && t.fifo.writableW.toNat == 3) = true := by
  decide
/-- V-PUSH-4. -/
theorem test_push_on_full : nextHas (exec (.push 0x08) (st (settledAt 7 0 false false []) []))
    (fun t => t.fifo.wr.ovf && t.fifo.wr.wbin.toNat == 7 && t.fifo.storage.isEmpty &&
      t.fifo.wstatus.toNat == 0b0110) = true := by decide
/-- V-PUSH-1, with `ovf` as it was. -/
theorem test_widle : nextHas (exec (.widle 0xFF) (st (settledAt 3 0 false false []) []))
    (fun t => t.fifo.wr.wbin.toNat == 3 && !t.fifo.wr.ovf && t.fifo.storage.isEmpty) = true := by decide
/-- V-PUSH-7: the release step, the push ignored. -/
theorem test_widle_or_push_in_reset : nextHas (exec (.push 0x33) (st releasing []))
    (fun t => !t.fifo.wInReset && !t.fifo.wr.ovf && t.fifo.wr.wbin.toNat == 0 && t.fifo.storage.isEmpty)
      = true := by decide

/-! ## The read port -/

/-- V-POP-2. -/
theorem test_pop_accepted : nextHas (exec .pop (st (settledAt 1 7 false false [(7, 0x41#8)]) []))
    (fun t => t.fifo.rd.rbin.toNat == 0 && t.fifo.rd.rgray.toNat == 0 && !t.fifo.rd.udf) = true ∧
    ((st (settledAt 1 7 false false [(7, 0x41#8)]) []).outputs 0).rdData.toNat = 0x41 := by decide
/-- V-POP-3. -/
theorem test_pop_on_empty : nextHas (exec .pop (st (settledAt 4 4 false false []) []))
    (fun t => t.fifo.rd.udf && t.fifo.rd.rbin.toNat == 4 && t.fifo.rd.rgray.toNat == 0b110) = true := by
  decide
/-- V-POP-1. -/
theorem test_ridle : nextHas (exec .ridle (st (settledAt 2 0 false true []) []))
    (fun t => t.fifo.rd.udf && t.fifo.rd.rbin.toNat == 0) = true := by decide

/-! ## Crossing and reset -/

/-- V-CDC-1 with the old draw: stage 1 takes 001, and the next edge 011. -/
theorem test_old_draw_then_new : nextHas
    (run 3 (st (settledAt 1 0 false false []) (stimEvents tp
      [.line (plainLine (.push 1)), .line ⟨.ridle, .old⟩, .line (plainLine .ridle)])))
    (fun t => t.fifo.rd.rsyncW.stages.map BitVec.toNat == [0b011, 0b001]) = true := by decide
/-- V-RST-1. -/
theorem test_rst_assert : nextHas (exec .rstAssert (st (settledAt 5 2 true true [(2, 0xAB#8)]) []))
    (fun t => t.fifo.wr.wbin.toNat == 0 && t.fifo.rd.rbin.toNat == 0 && t.fifo.wr.ovf && !t.fifo.rd.udf &&
      t.fifo.rInReset && t.fifo.wInReset && (Memory.read t.fifo.storage 2).toNat == 0xAB) = true := by decide
/-- V-RST-2: after two edges with new draws the write domain is out of reset. -/
theorem test_rst_release : nextHas
    (run 3 (State.reset.withProgram
      [.line (plainLine .rstRelease), .line ⟨.widle 0, .new⟩, .line (plainLine (.widle 0))]))
    (fun t => !t.fifo.wInReset && !t.fifo.wr.ovf && t.fifo.wrReady) = true := by decide

/-! ## The stimulus text -/

/-- 30_encoding.md R83, R84: lines, a comment, a directive and a pseudo-operation. -/
theorem test_reads_program : readProgram 8 (["W 0x41 ; a push", "R - @draw old", "", "READ 3"].map String.toList)
    = some [.line ⟨.push 0x41, .free⟩, .line ⟨.ridle, .old⟩, .read 3] := by decide
/-- A record of 9 bits, and a word that is no line. -/
theorem test_refuses_bad_lines : readProgram 8 ["W 256".toList] = none ∧
    readProgram 8 ["X 1".toList] = none := by decide

/-! ## Witnesses of the hypotheses -/

/-- The invariants hold in a state with crossings under way (not the reset state). -/
theorem witness_inv : Inv crossing where
  domain := {
    wgray_eq := by decide, rgray_eq := by decide, ovf_in_reset := by decide
    rd_overrun_in_reset := by decide, write_cleared := by decide, read_cleared := by decide }
  reset := ⟨⟨by decide, by decide, by decide⟩, ⟨by decide, by decide, by decide⟩⟩
  order := by unfold OrderInv; decide
  storage := by unfold StorageInv; decide

/-- They hold in a full block (`L = C - 1`, the boundary of the counts). -/
theorem witness_inv_full : Inv (settledAt 7 0 false false []) where
  domain := {
    wgray_eq := by decide, rgray_eq := by decide, ovf_in_reset := by decide
    rd_overrun_in_reset := by decide, write_cleared := by decide, read_cleared := by decide }
  reset := ⟨⟨by decide, by decide, by decide⟩, ⟨by decide, by decide, by decide⟩⟩
  order := by unfold OrderInv; decide
  storage := by unfold StorageInv; decide

/-- They hold in an empty block at a nonzero index. -/
theorem witness_inv_empty : Inv (settledAt 3 3 false false []) where
  domain := {
    wgray_eq := by decide, rgray_eq := by decide, ovf_in_reset := by decide
    rd_overrun_in_reset := by decide, write_cleared := by decide, read_cleared := by decide }
  reset := ⟨⟨by decide, by decide, by decide⟩, ⟨by decide, by decide, by decide⟩⟩
  order := by unfold OrderInv; decide
  storage := by unfold StorageInv; decide

/-- They hold in a block that is releasing from reset. -/
theorem witness_inv_releasing : Inv releasing where
  domain := {
    wgray_eq := by decide, rgray_eq := by decide, ovf_in_reset := by decide
    rd_overrun_in_reset := by decide, write_cleared := by decide, read_cleared := by decide }
  reset := ⟨⟨by decide, by decide, by decide⟩, ⟨by decide, by decide, by decide⟩⟩
  order := by unfold OrderInv; decide
  storage := by unfold StorageInv; decide

/-- A settled state that meets the invariants. -/
theorem witness_settled : Settled (settledAt 3 3 false false []) :=
  ⟨rfl, rfl, rfl, rfl, rfl, rfl, rfl⟩

theorem witness_DecodeOfEncodeIsTheOperation : Instr.wf 8 (.push 255) = true ∧ Instr.wf 8 (.push 0) = true ∧
    Instr.wf 8 (.widle 255) = true ∧ Instr.wf 8 .pop = true := by decide

theorem witness_EveryBinaryVectorHasAMeaning :
    PinEvent.wf 1 (.wrEdge [.one, .zero] .met .old) = true ∧
    (PinEvent.dutyMet (.rstLevel [.neither] .met) = true ∧
      Level.neither ∈ PinEvent.vec (.rstLevel [.neither] .met)) := by decide

theorem witness_StepRunsDecodedOperation : decode tp.W (encode tp.W (.push 0x41)) = .ok (.push 0x41) := by
  decide

theorem witness_StepWaitsAndRefusesBadEvents :
    decode tp.W (.rdEdge [] .met .free) = .error .vectorWidth := by decide

theorem witness_EveryOperationCompletes : Instr.wf tp.W (.push 255) = true := by decide

theorem witness_TooWideRecordIsRefusedAndNeverFetched : 2 ^ tp.W ≤ 256 ∧
    nextHas (step State.reset) (fun _ => true) = true := by decide

theorem witness_ConstructionRefusesBadParameters : (1 ≤ 1 ∧ 1 ≤ 1 ∧ 2 ≤ 2) ∧ ¬ (1 ≤ 0 ∧ 1 ≤ 1 ∧ 2 ≤ 2) ∧
    ¬ (1 ≤ 1 ∧ 1 ≤ 0 ∧ 2 ≤ 2) ∧ ¬ (1 ≤ 1 ∧ 1 ≤ 1 ∧ 2 ≤ 1) := by decide

theorem witness_RiseOfRstForcesResetValues : crossing.rst = false ∧ (1 ≤ 2 ∧ 2 ≤ tp.NS) ∧
    ((Fifo.reset tp).rst = true ∧ Instr.wf tp.W .rstAssert = true ∧ Instr.rstAssert ≠ .rstRelease) := by
  decide

theorem witness_FallOfRstMarksResetLinks : (Fifo.reset tp).rst = true ∧ releasing.rst = false := by decide

theorem witness_WriteEdgesDuringReset : Instr.format (.push 255) = .wport ∧ Instr.wf tp.W (.push 255) = true ∧
    (Fifo.reset tp).rst = true ∧ (releasing.rst = false ∧ releasing.wInReset = true) := by decide

theorem witness_ReadEdgesDuringReset : Instr.format .pop = .rport ∧ (Fifo.reset tp).rst = true ∧
    (releasing.rst = false ∧ releasing.rInReset = true) ∧ DomainInv releasing :=
  ⟨rfl, rfl, ⟨rfl, rfl⟩, witness_inv_releasing.domain⟩

/-- Lists of one, two (`NS`) and three edges; the draws all old, all new, mixed. -/
theorem witness_DomainsLeaveResetAfterNSEdges : ResetInv (Fifo.reset tp) ∧ (Fifo.reset tp).rst = true ∧
    (∀ l ∈ idleW [.old, .old], l.op.wf tp.W = true ∧ l.op.format = .wport ∧ l.draw = .old) ∧
    (∀ l ∈ idleR [.new, .new], l.op.wf tp.W = true ∧ l.op.format = .rport ∧ l.draw = .new) ∧
    (idleW [.old]).length < tp.NS ∧ (idleW [.old, .old]).length = tp.NS ∧
    tp.NS + 1 ≤ (idleR [.old, .free, .new]).length :=
  ⟨⟨⟨by decide, by decide, by decide⟩, ⟨by decide, by decide, by decide⟩⟩, by decide, by decide, by decide,
    by decide, by decide, by decide⟩

theorem witness_ResetThenSettleReachesS0 : crossing.rst = false ∧
    [DrawSel.free, .old, .new].length = tp.NS + 1 := by decide

theorem witness_SettleReachesASettledState : crossing.rst = false ∧ crossing.wInReset = false ∧
    crossing.rInReset = false ∧ [DrawSel.free, .old, .new].length = tp.NS + 1 := by decide

/-- Accepted with one free slot, rejected on full, rejected while latched. -/
theorem witness_PushOutOfResetFollowsPseudocode : 255 < 2 ^ tp.W ∧
    (let f := settledAt 6 0 false false [];
      f.rst = false ∧ f.wInReset = false ∧ f.wr.ovf = false ∧ f.writableW = ix 1) ∧
    (let f := settledAt 7 0 false false [];
      f.rst = false ∧ f.wInReset = false ∧ f.wr.ovf = false ∧ f.writableW = ix 0) ∧
    (let f := settledAt 7 7 true false [];
      f.rst = false ∧ f.wInReset = false ∧ f.wr.ovf = true) := by decide

theorem witness_WidleOutOfResetOnlySynchronizes : crossing.rst = false ∧ crossing.wInReset = false := by decide

theorem witness_WrReadyDecidesThePush : Inv crossing ∧ 255 < 2 ^ tp.W ∧
    ((st crossing []).outputs 0).wrReady = true ∧
    (Inv (settledAt 7 0 false false []) ∧ ((st (settledAt 7 0 false false []) []).outputs 0).wrReady = false) ∧
    (Inv releasing ∧ releasing.wInReset = true) :=
  ⟨witness_inv, by decide, by decide, ⟨witness_inv_full, by decide⟩, ⟨witness_inv_releasing, by decide⟩⟩

theorem witness_OverrunBoundaryAtCapacityMinusOne : Inv (settledAt 3 3 false false []) ∧
    Settled (settledAt 3 3 false false []) ∧ (settledAt 3 3 false false []).occupancy = 0#tp.AW ∧
    (settledAt 3 3 false false []).wr.ovf = false ∧ (repeatLine 8 (.push 255)).length = tp.C ∧
    (∀ l ∈ repeatLine 8 (.push 255), ∃ d, l.op = .push d ∧ d < 2 ^ tp.W) :=
  ⟨witness_inv_empty, witness_settled, by decide, by decide, by decide,
    fun l hl => ⟨255, by rw [List.eq_of_mem_replicate hl]; rfl, by decide⟩⟩

/-- One record to pop; none to pop. -/
theorem witness_PopOutOfResetFollowsPseudocode :
    (let f := settledAt 5 4 false true [];
      f.rst = false ∧ f.rInReset = false ∧ f.readableR ≠ 0#tp.AW) ∧
    (let f := settledAt 4 4 false false [];
      f.rst = false ∧ f.rInReset = false ∧ f.readableR = 0#tp.AW) := by decide

theorem witness_RidleOutOfResetOnlySynchronizes : crossing.rst = false ∧ crossing.rInReset = false := by decide

theorem witness_RdReadyPopReturnsTheOldestRecord : Inv crossing ∧
    ((st crossing []).outputs 0).rdReady = true := ⟨witness_inv, by decide⟩

theorem witness_SpansAreCountsCutAtTheWrap : (settledAt 7 0 false false []).wqRbin = 0#tp.AW ∧
    DomainInv releasing ∧ releasing.rInReset = true := ⟨by decide, witness_inv_releasing.domain, by decide⟩

theorem witness_ReadDataShowsTheHeadRecord : ((st crossing []).outputs 0).rdEmpty = false ∧ Inv crossing :=
  ⟨by decide, witness_inv⟩

/-- One bit, the least width; and a bit below the top one. -/
theorem witness_GrayBitsAreNeighbourXors : 1 ≤ 1 ∧ 0 < 2 - 1 := by decide

theorem witness_BinBitsArePrefixXors : 1 ≤ 1 ∧ 0 < 2 - 1 ∧ 1 < 2 := by decide

theorem witness_GrayChangesOneBitPerStep : 1 ≤ 1 ∧ DomainInv crossing ∧ Instr.push 1 ≠ .rstAssert ∧
    nextHas (exec (.push 1) (st crossing [])) (fun _ => true) = true :=
  ⟨by decide, witness_inv.domain, by decide, by decide⟩

theorem witness_SampleIsPreviousOrCurrentValue : DrawSel.new = .new ∧ DrawSel.old = .old ∧
    (LinkBook.mk 1#3 true).dirty = true := by decide

/-- For each clause an operation that changes that source. -/
theorem witness_SourceChangesMarkTheirLinks :
    nextHas (exec (.push 1) (st crossing [])) (fun t => t.fifo.wr.wgray.toNat != crossing.wr.wgray.toNat) ∧
    nextHas (exec (.push 1) (st (settledAt 7 0 false false []) [])) (fun t => t.fifo.wr.ovf) ∧
    nextHas (exec (.widle 0) (st releasing [])) (fun t => !t.fifo.wr.ovf) ∧
    nextHas (exec .pop (st (settledAt 5 4 false true []) []))
      (fun t => t.fifo.rd.rgray.toNat != 6 && !t.fifo.rd.udf) ∧
    nextHas (exec .pop (st (settledAt 4 4 false false []) [])) (fun t => t.fifo.rd.udf) ∧
    nextHas (exec .rstRelease (st (Fifo.reset tp) [])) (fun t => !t.fifo.rst) := by decide

theorem witness_IdleEdgesDeliverTheOtherSide : crossing.rst = false ∧ crossing.rInReset = false ∧
    crossing.wInReset = false ∧ tp.NS + 1 ≤ [DrawSel.old, .free, .free].length ∧
    (tp.NS ≤ [DrawSel.new, .free].length ∧ [DrawSel.new, .free].head? = some .new) ∧ DomainInv crossing :=
  ⟨by decide, by decide, by decide, by decide, by decide, witness_inv.domain⟩

theorem witness_CoincidentEdgesAgreeOnTheOldDraw : DomainInv (settledAt 3 3 false false []) ∧
    PushAccepted (settledAt 3 3 false false []) ∧ (settledAt 3 3 false false []).rInReset = false ∧
    255 < 2 ^ tp.W ∧ (settledAt 3 3 false false []).links.wptr.dirty = false :=
  ⟨witness_inv_empty.domain, by decide, by decide, by decide, by decide⟩

theorem witness_ViewsOnlyMoveForward : Inv crossing ∧ Instr.wf tp.W .ridle = true ∧
    ¬ (Instr.ridle = .rstAssert ∧ crossing.rst = false) := ⟨witness_inv, by decide, by decide⟩

theorem witness_DomainInvariantsHoldAfterTheFirstReset : crossing.rst = false ∧
    DomainInv (st crossing [encode 8 (.push 1)]).fifo ∧
    nextHas (step (st crossing [encode 8 (.push 1)])) (fun _ => true) = true :=
  ⟨by decide, witness_inv.domain, by decide⟩

theorem witness_RiseOfRstEstablishesTheInvariants : crossing.rst = false ∧ StorageInv crossing ∧
    AtPowerOn { crossing with storage := [] } := ⟨by decide, witness_inv.storage, rfl⟩

theorem witness_EveryStepKeepsTheInvariants : Inv (st crossing [encode 8 (.push 1)]).fifo ∧
    nextHas (step (st crossing [encode 8 (.push 1)])) (fun _ => true) = true := ⟨witness_inv, by decide⟩

theorem witness_ViewsNeverExceedTheTruth : Inv crossing ∧ Inv (settledAt 7 0 false false []) :=
  ⟨witness_inv, witness_inv_full⟩

theorem witness_SumLawOfTheCounts : Inv (settledAt 3 3 false false []) ∧ Settled (settledAt 3 3 false false []) :=
  ⟨witness_inv_empty, witness_settled⟩

/-- The last unread record, and the case of equal indices. -/
theorem witness_UnreadSlotsAreNeverWritten : Inv crossing ∧ Instr.wf tp.W (.push 255) = true ∧
    3 < crossing.occupancy.toNat ∧ (Inv (settledAt 3 3 false false []) ∧
      (settledAt 3 3 false false []).wr.wbin = (settledAt 3 3 false false []).rd.rbin) :=
  ⟨witness_inv, by decide, by decide, witness_inv_empty, by decide⟩

/-- An accepted push, an accepted pop, a rise of `rst`, and an operation that is none of these. -/
theorem witness_BlockRefinesAQueue : Inv crossing ∧ Instr.wf tp.W (.push 255) = true ∧ PushAccepted crossing ∧
    PopAccepted crossing ∧ crossing.rst = false ∧
    (Inv (settledAt 7 0 false false []) ∧ ¬ PushAccepted (settledAt 7 0 false false [])) :=
  ⟨witness_inv, by decide, by decide, by decide, by decide, witness_inv_full, by decide⟩

theorem witness_RunsDeliverEveryRecordInOrder :
    (let s := st crossing (stimEvents tp [.line (plainLine (.push 1)), .line ⟨.pop, .new⟩]);
      Inv s.fifo ∧ nextHas (run 2 s) (fun _ => true) = true ∧ noRiseIn 2 s = true ∧
        pushedIn 2 s = [1] ∧ poppedIn 2 s = [0x12]) ∧
    (let s := st (settledAt 3 3 false false []) (stimEvents tp [.line (plainLine (.push 1))]);
      Inv s.fifo ∧ noRiseIn 1 s = true ∧ contents s.fifo = []) :=
  ⟨⟨witness_inv, by decide, by decide, by decide, by decide⟩, witness_inv_empty, by decide, by decide⟩

/-- One operation of each port that has a next state. -/
theorem witness_PortsChangeOnlyTheirOwnDomain :
    nextHas (exec (.push 1) (st crossing [])) (fun _ => true) = true ∧ Instr.format (.push 1) = .wport ∧
    nextHas (exec .pop (st crossing [])) (fun _ => true) = true ∧ Instr.format .pop = .rport ∧
    nextHas (exec .rstAssert (st crossing [])) (fun _ => true) = true ∧ Instr.format .rstAssert = .rst ∧
    crossing.rst = false := by decide

/-- Two blocks with the same write domain and links, and other storage and read-domain registers. -/
theorem witness_NothingCrossesButTheLinks :
    (let f' : Fifo tp := { crossing with storage := [], rd := { crossing.rd with rbin := 0#tp.AW } };
      Instr.wf tp.W (.push 1) = true ∧ f'.rst = crossing.rst ∧ Instr.format (.push 1) = .wport ∧
        f'.wr = crossing.wr ∧ f'.rd.rgray = crossing.rd.rgray ∧ f'.rd.udf = crossing.rd.udf ∧
        f'.links = crossing.links) ∧
    (let f' : Fifo tp := { crossing with storage := [], wr := { crossing.wr with wbin := 0#tp.AW } };
      f'.rst = crossing.rst ∧ Instr.format .pop = .rport ∧ f'.rd = crossing.rd ∧
        f'.wr.wgray = crossing.wr.wgray ∧ f'.wr.ovf = crossing.wr.ovf ∧ f'.links = crossing.links) := by
  decide

theorem witness_RecordsNeverSteerTheBlock : Instr.wf tp.W (.push 255) = true := by decide

theorem witness_IndicesAdvanceOnlyByAcceptedOperations :
    nextHas (exec (.push 1) (st crossing [])) (fun t => t.fifo.wr.wbin.toNat == 7) = true ∧
    nextHas (exec .pop (st crossing [])) (fun t => t.fifo.rd.rbin.toNat == 3) = true := by decide

theorem witness_OverrunClearsOnlyAtResetRelease : releasing.wr.ovf = true ∧
    nextHas (exec (.widle 0) (st releasing [])) (fun t => !t.fifo.wr.ovf) = true := by decide

end Sys2Proof.Tests
end

section
/-! PROOFS. The step and the construction of a block (00_scope.md R9, R14). -/

namespace Sys2Proof

/-! ### Construction -/

/-- Legal values construct the configuration made of them. -/
theorem Params.construct_of_legal {w aw ns : Nat} (hw : 1 ≤ w) (haw : 1 ≤ aw) (hns : 2 ≤ ns) :
    Params.construct w aw ns = .ok ⟨w, aw, ns, hw, haw, hns⟩ := by
  simp [Params.construct, hw, haw, hns]

/-- A constructed configuration has the values asked for; that they are legal is in its own proofs. -/
theorem Params.values_of_construct_ok {w aw ns : Nat} {p : Params}
    (h : Params.construct w aw ns = .ok p) : p.W = w ∧ p.AW = aw ∧ p.NS = ns := by
  unfold Params.construct at h
  split_ifs at h
  cases h
  exact ⟨rfl, rfl, rfl⟩

/-- Settles O8: legal values construct their configuration, and a constructed one carries the proofs that
the values asked for are legal, so any other is refused. -/
theorem constructionRefusesBadParameters : Obligations.ConstructionRefusesBadParameters := by
  intro w aw ns
  constructor
  · rintro ⟨hw, haw, hns⟩
    exact ⟨_, Params.construct_of_legal hw haw hns, rfl, rfl, rfl⟩
  · intro hbad
    cases hc : Params.construct w aw ns with
    | error r => exact ⟨r, rfl⟩
    | ok p =>
      obtain ⟨rfl, rfl, rfl⟩ := Params.values_of_construct_ok hc
      exact absurd ⟨p.W_pos, p.AW_pos, p.NS_two⟩ hbad

namespace Machine

/-! ### The step -/

/-- Taking the oldest event moves the environment on and leaves the block alone. -/
@[simp] theorem fetch_cons (p : Params) (f : Fifo p) (ev : PinEvent) (rest : List PinEvent)
    (ds : DrawSel) (tick : Nat) :
    fetch ⟨p, f, ⟨ev :: rest, ds, tick⟩⟩ = some (ev, ⟨p, f, ⟨rest, ev.drawSel, tick + 1⟩⟩) := rfl

/-- A step whose event decodes is the meaning of that operation in the state the event leaves. -/
theorem step_eq_exec {s t : State} {ev : PinEvent} {i : Instr} (hf : fetch s = some (ev, t))
    (hd : decode s.cfg.W ev = .ok i) : step s = exec i t := by
  simp only [step, hf, hd]

/-- Settles O4: the oldest event is the one fetched, and the step runs what it decodes to. -/
theorem stepRunsDecodedOperation : Obligations.StepRunsDecodedOperation := by
  intro p f ev rest ds tick i hd
  exact step_eq_exec (fetch_cons p f ev rest ds tick) hd

end Machine

end Sys2Proof
end

section
/-! PROOFS. Facts about gray code, chains and link histories that the invariants rest on
(30_encoding.md R78, 42_cdc_sync.md R141 to R149). -/

namespace Sys2Proof.Machine

open Sys2Proof

/-! ### Gray code -/

/-- The exclusive-ors of the shifts of a gray code telescope. -/
theorem xorShifts_gray {n : Nat} (b : Index n) (k : Nat) : xorShifts (gray b) k = b ^^^ (b >>> k) := by
  induction k with
  | zero => simp [xorShifts]
  | succ k ih =>
    have hshift : gray b >>> k = (b >>> k) ^^^ (b >>> (k + 1)) := by
      rw [gray, BitVec.ushiftRight_xor_distrib, ← BitVec.shiftRight_add, Nat.add_comm 1 k]
    calc xorShifts (gray b) (k + 1)
        = (b ^^^ (b >>> k)) ^^^ ((b >>> k) ^^^ (b >>> (k + 1))) := by rw [xorShifts, ih, hshift]
      _ = b ^^^ (((b >>> k) ^^^ (b >>> k)) ^^^ (b >>> (k + 1))) := by simp only [BitVec.xor_assoc]
      _ = b ^^^ (b >>> (k + 1)) := by simp

/-- Reading a gray code back gives the index (30_encoding.md R78). -/
@[simp] theorem bin_gray {n : Nat} (b : Index n) : bin (gray b) = b := by
  rw [bin, xorShifts_gray, BitVec.ushiftRight_eq_zero (Nat.le_refl n), BitVec.xor_zero]

@[simp] theorem gray_zero (n : Nat) : gray 0#n = 0#n := by simp [gray]

@[simp] theorem bin_zero (n : Nat) : bin 0#n = 0#n := by simpa using bin_gray 0#n

/-! ### Differences of indices modulo `C` -/

/-- A difference goes up by one with its first operand, up to the wrap. -/
theorem toNat_succ_sub {n : Nat} {a b : Index n} (hn : 1 ≤ n) (h : (a - b).toNat + 1 < 2 ^ n) :
    (a + 1#n - b).toNat = (a - b).toNat + 1 := by
  have hone : (1#n).toNat = 1 := BitVec.toNat_one hn
  rw [BitVec.add_sub_comm, BitVec.toNat_add_of_lt (by rw [hone]; exact h), hone]

/-- A positive difference goes down by one when its second operand goes up. -/
theorem toNat_sub_succ {n : Nat} {a b : Index n} (hn : 1 ≤ n) (h : (a - b).toNat ≠ 0) :
    (a - (b + 1#n)).toNat + 1 = (a - b).toNat := by
  have hone : (1#n).toNat = 1 := BitVec.toNat_one hn
  rw [← BitVec.sub_sub, BitVec.toNat_sub_of_le (by rw [BitVec.le_def, hone]; omega), hone]
  omega

/-- A difference of indices is the difference of their numbers, modulo `2 ^ n`. -/
theorem toNat_sub_eq_emod {n : Nat} (a b : Index n) :
    ((a - b).toNat : Int) = ((a.toNat : Int) - b.toNat) % ((2 ^ n : Nat) : Int) := by
  rw [BitVec.toNat_sub, Int.natCast_emod, Nat.cast_add, Nat.cast_sub b.isLt.le, sub_add_eq_add_sub,
    add_sub_assoc, Int.add_emod_left]

/-! ### Chains -/

section Chains
variable {α : Type} {n : Nat}

theorem Chain.stages_ne_nil (c : Chain α n) (hn : 1 ≤ n) : c.stages ≠ [] := by
  intro h
  have hlen := c.len
  rw [h, List.length_nil] at hlen
  omega

/-- Stage `NS` is the last entry of the list of stages. -/
theorem Chain.last_eq_getLast [Inhabited α] (c : Chain α n) (hn : 1 ≤ n) :
    c.last = c.stages.getLast (c.stages_ne_nil hn) := by
  have hlen := c.len
  rw [Chain.last, Chain.stage, List.getLast_eq_getElem, List.getD_eq_getElem _ _ (by omega)]
  simp only [hlen]

end Chains

/-! ### What a link knows of its source -/

section History
variable {α : Type} {n : Nat} {R : α → α → Prop} {cur : α} {b b' : LinkBook α} {c c' : Chain α n}

theorem cur_mem_linkHistory (cur : α) (b : LinkBook α) (c : Chain α n) : cur ∈ linkHistory cur b c :=
  List.mem_cons_self

/-- A clean link knows its source and its stages. -/
theorem linkHistory_clean (h : b.dirty = false) : linkHistory cur b c = cur :: c.stages := by
  simp [linkHistory, h]

/-- In an ordered history the source stands before everything. -/
theorem linkHistory_rel_cur (h : (linkHistory cur b c).Pairwise R) (hrefl : ∀ a, R a a) {x : α}
    (hx : x ∈ linkHistory cur b c) : R cur x :=
  h.rel_head_of_rel_head_head hx (hrefl _)

/-- In an ordered history stage `NS` stands after everything. -/
theorem linkHistory_rel_last [Inhabited α] (h : (linkHistory cur b c).Pairwise R)
    (hrefl : ∀ a, R a a) (hn : 1 ≤ n) {x : α} (hx : x ∈ linkHistory cur b c) : R x c.last := by
  have hlast : (linkHistory cur b c).getLast (List.ne_nil_of_mem hx) = c.last := by
    rw [Chain.last_eq_getLast c hn]
    simp [linkHistory, List.getLast_cons, c.stages_ne_nil hn]
  exact hlast ▸ h.rel_getLast_of_rel_getLast_getLast hx (hrefl _)

/-- After a sample the stages hold what the link knew before, in the same order. -/
theorem stages_sublist_linkHistory (ht : ChainTook b cur c c') :
    c'.stages.Sublist (linkHistory cur b c) := by
  obtain ⟨v, hv | ⟨hd, hv⟩, hc⟩ := ht <;> subst hv <;> rw [hc]
  · exact ((List.dropLast_sublist _).trans (List.sublist_append_right _ _)).cons_cons _
  · simpa [linkHistory, hd] using ((List.dropLast_sublist c.stages).cons_cons b.prev).cons cur

/-- A sample brings nothing new into a history. -/
theorem linkHistory_took_subset (ht : ChainTook b cur c c') (hclean : b'.dirty = false) :
    linkHistory cur b' c' ⊆ linkHistory cur b c := by
  rw [linkHistory_clean hclean]
  exact List.cons_subset.2 ⟨cur_mem_linkHistory cur b c, (stages_sublist_linkHistory ht).subset⟩

/-- A sample keeps a history ordered. -/
theorem linkHistory_took_pairwise (h : (linkHistory cur b c).Pairwise R) (hrefl : ∀ a, R a a)
    (ht : ChainTook b cur c c') (hclean : b'.dirty = false) : (linkHistory cur b' c').Pairwise R := by
  have hsub := stages_sublist_linkHistory ht
  rw [linkHistory_clean hclean, List.pairwise_cons]
  exact ⟨fun x hx => linkHistory_rel_cur h hrefl (hsub.subset hx), h.sublist hsub⟩

/-- A change of the source to a value that stands before all known ones keeps a history ordered. -/
theorem linkHistory_changed_pairwise [DecidableEq α] {v : α} (h : (linkHistory cur b c).Pairwise R)
    (hv : ∀ x ∈ linkHistory cur b c, R v x) :
    (linkHistory v (b.changed cur v) c).Pairwise R := by
  by_cases hcur : v = cur
  · rw [hcur, changed_same]
    exact h
  · have hsub : (cur :: c.stages).Sublist (linkHistory cur b c) :=
      (List.sublist_append_right _ _).cons_cons _
    rw [changed_ne b hcur]
    exact List.pairwise_cons.2 ⟨fun x hx => hv x (hsub.subset hx), h.sublist hsub⟩

/-- The history of a link out of reset values is ordered. -/
theorem linkHistory_fill_pairwise (hrefl : ∀ a, R a a) (v : α) :
    (linkHistory v ⟨v, false⟩ (Chain.fill v : Chain α n)).Pairwise R := by
  rw [linkHistory_clean rfl]
  exact List.pairwise_replicate (n := n + 1) |>.2 (.inr (hrefl v))

end History

end Sys2Proof.Machine
end

section
/-! PROOFS. The invariants of the state: what each edge and each change of `rst` keeps (10_state.md R36,
42_cdc_sync.md R147, R149, 20_memory.md R58 to R60). -/

namespace Sys2Proof.Machine

open Sys2Proof

/-! ### Steps and the events they are made of -/

/-- Every change an operation can make to the block keeps the property. -/
structure KeptByEvents (P : ∀ {p : Params}, Fifo p → Prop) : Prop where
  on_writeEdge : ∀ {p : Params} {f : Fifo p} (e : Env) (en : Bool) (d : Record p.W),
    P f → P (writeEdge e f en d)
  on_readEdge : ∀ {p : Params} {f : Fifo p} (e : Env) (en : Bool), P f → P (readEdge e f en)
  on_forceReset : ∀ {p : Params} {f : Fifo p}, P f → P (forceReset f)
  on_dropReset : ∀ {p : Params} {f : Fifo p}, f.rst = true → P f → P (dropReset f)

/-- An operation keeps what every edge and every change of `rst` keeps. -/
theorem KeptByEvents.exec {P : ∀ {p : Params}, Fifo p → Prop} (hP : KeptByEvents P) {i : Instr}
    {s t : State} (hs : P s.fifo) (h : exec i s = .next t) : P t.fifo := by
  obtain ⟨g, rfl, ⟨d, -, -, rfl⟩ | ⟨x, -, rfl⟩ | ⟨-, rfl⟩ | ⟨-, rfl⟩ | ⟨-, rfl⟩ | ⟨-, rfl⟩⟩ :=
    exec_next_cases h
  · exact hP.on_writeEdge _ _ _ hs
  · exact hP.on_writeEdge _ _ _ hs
  · exact hP.on_readEdge _ _ hs
  · exact hP.on_readEdge _ _ hs
  · show P (if s.fifo.rst then s.fifo else forceReset s.fifo)
    split
    · exact hs
    · exact hP.on_forceReset hs
  · show P (if s.fifo.rst then dropReset s.fifo else s.fifo)
    split
    · exact hP.on_dropReset ‹_› hs
    · exact hs

/-- So does a step. -/
theorem KeptByEvents.step {P : ∀ {p : Params}, Fifo p → Prop} (hP : KeptByEvents P) {s t : State}
    (hs : P s.fifo) (h : step s = .next t) : P t.fifo := by
  obtain ⟨-, rfl⟩ | ⟨ev, rest, i, -, -, hexec⟩ := step_next_cases h
  · exact hs
  · exact hP.exec (s := ⟨s.cfg, s.fifo, ⟨rest, ev.drawSel, s.env.tick + 1⟩⟩) hs hexec

section Invariants
variable {p : Params} {f : Fifo p}

/-! ### The domains (10_state.md R36) -/

/-- At every release edge `ovf` takes the next value of `w_in_reset` (40_write_port.md R101). -/
theorem releaseStepW_wInReset (e : Env) (f : Fifo p) :
    (releaseStepW e f).wInReset = (releaseStepW e f).wr.ovf :=
  Chain.last_shift _ _ p.NS_two

theorem domainInv_syncStepW (e : Env) (h : DomainInv f) (hres : f.wInReset = false) :
    DomainInv (syncStepW e f) :=
  { h with write_cleared := fun hr : f.wInReset = true => absurd hr (by simp [hres]) }

theorem domainInv_syncStepR (e : Env) (h : DomainInv f) (hres : f.rInReset = false) :
    DomainInv (syncStepR e f) :=
  { h with
    rd_overrun_in_reset := fun hr : f.rInReset = true => absurd hr (by simp [hres])
    read_cleared := fun hr : f.rInReset = true => absurd hr (by simp [hres]) }

theorem domainInv_releaseStepW (e : Env) (h : DomainInv f) (hres : f.wInReset = true) :
    DomainInv (releaseStepW e f) :=
  { h with
    ovf_in_reset := fun hr => releaseStepW_wInReset e f ▸ hr
    write_cleared := fun _ => h.write_cleared hres }

theorem domainInv_releaseStepR (e : Env) (h : DomainInv f) (hres : f.rInReset = true) :
    DomainInv (releaseStepR e f) :=
  { h with
    rd_overrun_in_reset := fun _ => h.rd_overrun_in_reset hres
    read_cleared := fun _ => h.read_cleared hres }

theorem domainInv_raiseOverrun (h : DomainInv f) : DomainInv (raiseOverrun f) :=
  { h with ovf_in_reset := fun _ => rfl }

theorem domainInv_storeAndAdvance (d : Record p.W) (h : DomainInv f) (hres : f.wInReset = false) :
    DomainInv (storeAndAdvance d f) :=
  { h with
    wgray_eq := rfl
    write_cleared := fun hr : f.wInReset = true => absurd hr (by simp [hres]) }

theorem domainInv_raiseUnderrun (h : DomainInv f) : DomainInv (raiseUnderrun f) := { h with }

theorem domainInv_consumeAndAdvance (h : DomainInv f) (hres : f.rInReset = false) :
    DomainInv (consumeAndAdvance f) :=
  { h with
    rgray_eq := rfl
    read_cleared := fun hr : f.rInReset = true => absurd hr (by simp [hres]) }

/-- A rise of `rst` establishes the invariants of the domains from every state. -/
theorem domainInv_forceReset (f : Fifo p) : DomainInv (forceReset f) where
  wgray_eq := (gray_zero p.AW).symm
  rgray_eq := (gray_zero p.AW).symm
  ovf_in_reset _ := rfl
  rd_overrun_in_reset _ := Chain.last_fill true (Nat.le_of_succ_le p.NS_two)
  write_cleared _ := ⟨rfl, rfl, rfl⟩
  read_cleared _ := ⟨rfl, rfl, rfl⟩

theorem domainInv_writeEdge (e : Env) (en : Bool) (d : Record p.W) (h : DomainInv f) :
    DomainInv (writeEdge e f en d) := by
  obtain ⟨-, hg⟩ | ⟨-, hres, hg⟩ | ⟨-, hres, ⟨-, hg⟩ | ⟨-, -, hg⟩ | ⟨-, -, -, hg⟩ | ⟨-, -, -, hg⟩⟩ :=
    writeEdge_cases e f en d <;> rw [hg]
  · exact h
  · exact domainInv_releaseStepW e h hres
  · exact domainInv_syncStepW e h hres
  · exact domainInv_syncStepW e h hres
  · exact domainInv_raiseOverrun (domainInv_syncStepW e h hres)
  · exact domainInv_storeAndAdvance d (domainInv_syncStepW e h hres) hres

theorem domainInv_readEdge (e : Env) (en : Bool) (h : DomainInv f) : DomainInv (readEdge e f en) := by
  obtain ⟨-, hg⟩ | ⟨-, hres, hg⟩ | ⟨-, hres, ⟨-, hg⟩ | ⟨-, -, hg⟩ | ⟨-, -, hg⟩⟩ :=
    readEdge_cases e f en <;> rw [hg]
  · exact h
  · exact domainInv_releaseStepR e h hres
  · exact domainInv_syncStepR e h hres
  · exact domainInv_raiseUnderrun (domainInv_syncStepR e h hres)
  · exact domainInv_consumeAndAdvance (domainInv_syncStepR e h hres) hres

/-- The invariants of the domains are inductive on their own. -/
theorem domainInv_kept : KeptByEvents DomainInv where
  on_writeEdge e en d h := domainInv_writeEdge e en d h
  on_readEdge e en h := domainInv_readEdge e en h
  on_forceReset _ := domainInv_forceReset _
  on_dropReset _ h := { h with }

/-! ### The reset synchronizers (42_cdc_sync.md R147) -/

theorem resetChainInv_fill (rst : Bool) (b : LinkBook Bool) :
    ResetChainInv (p := p) rst b (Chain.fill true) where
  held _ := rfl
  unsampled _ := rfl
  ones_last := List.pairwise_replicate.2 (.inr id)

/-- A release step keeps a reset chain in order: it takes a 1 only from a fall not yet sampled, when
every stage is 1. -/
theorem resetChainInv_shift {b : LinkBook Bool} {c : Chain Bool p.NS} (e : Env) (l : Link)
    (h : ResetChainInv (p := p) false b c) :
    ResetChainInv (p := p) false b.sampled (c.shift (sample e l b false)) where
  held hrst := absurd hrst (by decide)
  unsampled hd := absurd hd (by simp)
  ones_last := by
    rw [Chain.stages_shift c _ (Nat.le_of_succ_le p.NS_two), List.pairwise_cons]
    refine ⟨fun older hmem hnew => ?_, h.ones_last.sublist (List.dropLast_sublist _)⟩
    obtain hv | ⟨hdirty, -⟩ := sample_allowed e l b false
    · exact absurd hnew (by simp [hv])
    · rw [h.unsampled hdirty] at hmem
      exact List.eq_of_mem_replicate (List.mem_of_mem_dropLast hmem)

theorem resetInv_releaseStepW (e : Env) (h : ResetInv f) (hrst : f.rst = false) :
    ResetInv (releaseStepW e f) := by
  obtain ⟨hw, hr⟩ := h
  refine ⟨?_, hr⟩
  simp only [releaseStepW_rst, releaseStepW_links_wRst, releaseStepW_wr_wrst, hrst] at hw ⊢
  exact resetChainInv_shift e .wRst hw

theorem resetInv_releaseStepR (e : Env) (h : ResetInv f) (hrst : f.rst = false) :
    ResetInv (releaseStepR e f) := by
  obtain ⟨hw, hr⟩ := h
  refine ⟨hw, ?_⟩
  simp only [releaseStepR_rst, releaseStepR_links_rRst, releaseStepR_rd_rrst, hrst] at hr ⊢
  exact resetChainInv_shift e .rRst hr

theorem resetInv_writeEdge (e : Env) (en : Bool) (d : Record p.W) (h : ResetInv f) :
    ResetInv (writeEdge e f en d) := by
  obtain ⟨-, hg⟩ | ⟨hrst, -, hg⟩ | ⟨-, -, ⟨-, hg⟩ | ⟨-, -, hg⟩ | ⟨-, -, -, hg⟩ | ⟨-, -, -, hg⟩⟩ :=
    writeEdge_cases e f en d <;> rw [hg]
  case inr.inl => exact resetInv_releaseStepW e h hrst
  all_goals exact h

theorem resetInv_readEdge (e : Env) (en : Bool) (h : ResetInv f) : ResetInv (readEdge e f en) := by
  obtain ⟨-, hg⟩ | ⟨hrst, -, hg⟩ | ⟨-, -, ⟨-, hg⟩ | ⟨-, -, hg⟩ | ⟨-, -, hg⟩⟩ :=
    readEdge_cases e f en <;> rw [hg]
  case inr.inl => exact resetInv_releaseStepR e h hrst
  all_goals exact h

theorem resetInv_forceReset (f : Fifo p) : ResetInv (forceReset f) :=
  ⟨resetChainInv_fill _ _, resetChainInv_fill _ _⟩

theorem resetInv_dropReset (hrst : f.rst = true) (h : ResetInv f) : ResetInv (dropReset f) := by
  obtain ⟨hw, hr⟩ := h
  refine ⟨?_, ?_⟩
  · rw [dropReset_wr, hw.held hrst]
    exact resetChainInv_fill _ _
  · rw [dropReset_rd, hr.held hrst]
    exact resetChainInv_fill _ _

/-- While `rst = 1` the write domain is in reset. -/
theorem wInReset_of_rst (h : ResetInv f) (hrst : f.rst = true) : f.wInReset = true := by
  rw [Fifo.wInReset, h.1.held hrst]
  exact Chain.last_fill true (Nat.le_of_succ_le p.NS_two)

/-! ### The ordered views (20_memory.md R59, R60, 42_cdc_sync.md R149) -/

/-- What the write-index link knows of its source, newest first. -/
abbrev writeIndexHistory (f : Fifo p) : List (Gray p.AW) :=
  linkHistory f.wr.wgray f.links.wptr f.rd.rsyncW

/-- What the read-index link knows of its source, newest first. -/
abbrev readIndexHistory (f : Fifo p) : List (Gray p.AW) :=
  linkHistory f.rd.rgray f.links.rptr f.wr.wsyncR

/-- `writable_w` leaves out the slots behind `wbin` as the write domain sees them, and the sentinel. -/
theorem writableW_toNat (f : Fifo p) :
    f.writableW.toNat = p.C - 1 - behindWrite f f.wr.wsyncR.last := by
  have hnot : f.writableW = ~~~(f.wr.wbin - f.wqRbin) := by
    rw [BitVec.not_eq_neg_add]
    simp only [Fifo.writableW, BitVec.sub_eq_add_neg, BitVec.neg_add, BitVec.neg_neg]
    ac_rfl
  rw [hnot, BitVec.toNat_not]
  rfl

theorem aheadOfRead_wgray (h : DomainInv f) : aheadOfRead f f.wr.wgray = f.occupancy.toNat := by
  rw [aheadOfRead, h.wgray_eq, bin_gray]
  rfl

theorem behindWrite_rgray (h : DomainInv f) : behindWrite f f.rd.rgray = f.occupancy.toNat := by
  rw [behindWrite, h.rgray_eq, bin_gray]
  rfl

/-- Every write index on its way shows at least what the read domain sees, and at most the truth. -/
theorem aheadOfRead_bounds (hd : DomainInv f) (ho : OrderInv f) {x : Gray p.AW}
    (hx : x ∈ writeIndexHistory f) :
    f.readableR.toNat ≤ aheadOfRead f x ∧ aheadOfRead f x ≤ f.occupancy.toNat :=
  ⟨linkHistory_rel_last ho.1 (fun _ => Nat.le_refl _) (Nat.le_of_succ_le p.NS_two) hx,
   aheadOfRead_wgray hd ▸ linkHistory_rel_cur ho.1 (fun _ => Nat.le_refl _) hx⟩

/-- Every read index on its way shows at least the true occupancy, and at most what the write domain
sees. -/
theorem behindWrite_bounds (hd : DomainInv f) (ho : OrderInv f) {x : Gray p.AW}
    (hx : x ∈ readIndexHistory f) :
    f.occupancy.toNat ≤ behindWrite f x ∧ behindWrite f x ≤ behindWrite f f.wr.wsyncR.last :=
  ⟨behindWrite_rgray hd ▸ linkHistory_rel_cur ho.2 (fun _ => Nat.le_refl _) hx,
   linkHistory_rel_last ho.2 (fun _ => Nat.le_refl _) (Nat.le_of_succ_le p.NS_two) hx⟩

/-- The read domain never sees more than there is (20_memory.md R59). -/
theorem readableR_le_occupancy (hd : DomainInv f) (ho : OrderInv f) :
    f.readableR.toNat ≤ f.occupancy.toNat := by
  obtain ⟨hlow, hhigh⟩ := aheadOfRead_bounds hd ho (cur_mem_linkHistory _ _ _)
  exact hlow.trans hhigh

theorem orderInv_syncStepW (e : Env) (h : OrderInv f) : OrderInv (syncStepW e f) :=
  ⟨h.1, linkHistory_took_pairwise h.2 (fun _ => Nat.le_refl _) (syncStepW_stepped e f).1 rfl⟩

theorem orderInv_syncStepR (e : Env) (h : OrderInv f) : OrderInv (syncStepR e f) :=
  ⟨linkHistory_took_pairwise h.1 (fun _ => Nat.le_refl _) (syncStepR_stepped e f).1 rfl, h.2⟩

/-- An accepted push keeps the views ordered when every read index on its way leaves a slot free. -/
theorem orderInv_storeAndAdvance (d : Record p.W) (hd : DomainInv f) (ho : OrderInv f)
    (hroom : ∀ x ∈ readIndexHistory f, behindWrite f x + 1 < p.C) :
    OrderInv (storeAndAdvance d f) := by
  have hocc : f.occupancy.toNat + 1 < p.C :=
    behindWrite_rgray hd ▸ hroom _ (cur_mem_linkHistory _ _ _)
  have hnew : aheadOfRead f (gray (f.wr.wbin + 1#p.AW)) = f.occupancy.toNat + 1 := by
    rw [aheadOfRead, bin_gray]
    exact toNat_succ_sub p.AW_pos hocc
  have hbehind : ∀ x ∈ readIndexHistory f,
      behindWrite (storeAndAdvance d f) x = behindWrite f x + 1 :=
    fun x hx => toNat_succ_sub p.AW_pos (hroom x hx)
  constructor
  · refine linkHistory_changed_pairwise ho.1 fun x hx => ?_
    have hle := (aheadOfRead_bounds hd ho hx).2
    show aheadOfRead f x ≤ aheadOfRead f (gray (f.wr.wbin + 1#p.AW))
    omega
  · refine ho.2.imp_of_mem fun {a b} ha hb hab => ?_
    rw [hbehind a ha, hbehind b hb]
    omega

/-- An accepted pop keeps the views ordered when every write index on its way shows a record. -/
theorem orderInv_consumeAndAdvance (hd : DomainInv f) (ho : OrderInv f)
    (hrec : ∀ x ∈ writeIndexHistory f, aheadOfRead f x ≠ 0) : OrderInv (consumeAndAdvance f) := by
  have hocc : f.occupancy.toNat ≠ 0 :=
    aheadOfRead_wgray hd ▸ hrec _ (cur_mem_linkHistory _ _ _)
  have hnew : behindWrite f (gray (f.rd.rbin + 1#p.AW)) + 1 = f.occupancy.toNat := by
    rw [behindWrite, bin_gray]
    exact toNat_sub_succ p.AW_pos hocc
  have hahead : ∀ x ∈ writeIndexHistory f,
      aheadOfRead (consumeAndAdvance f) x + 1 = aheadOfRead f x :=
    fun x hx => toNat_sub_succ p.AW_pos (hrec x hx)
  constructor
  · refine ho.1.imp_of_mem fun {a b} ha hb hab => ?_
    have hsuccA := hahead a ha
    have hsuccB := hahead b hb
    omega
  · refine linkHistory_changed_pairwise ho.2 fun x hx => ?_
    have hle := (behindWrite_bounds hd ho hx).1
    show behindWrite f (gray (f.rd.rbin + 1#p.AW)) ≤ behindWrite f x
    omega

theorem orderInv_forceReset (f : Fifo p) : OrderInv (forceReset f) :=
  ⟨linkHistory_fill_pairwise (by exact fun _ => Nat.le_refl _) _,
   linkHistory_fill_pairwise (by exact fun _ => Nat.le_refl _) _⟩

theorem orderInv_writeEdge (e : Env) (en : Bool) (d : Record p.W) (hd : DomainInv f)
    (ho : OrderInv f) : OrderInv (writeEdge e f en d) := by
  obtain ⟨-, hg⟩ | ⟨-, -, hg⟩ | ⟨-, hres, ⟨-, hg⟩ | ⟨-, -, hg⟩ | ⟨-, -, -, hg⟩ | ⟨-, -, hfree, hg⟩⟩ :=
    writeEdge_cases e f en d <;> rw [hg]
  · exact ho
  · exact ho
  · exact orderInv_syncStepW e ho
  · exact orderInv_syncStepW e ho
  · exact orderInv_syncStepW e ho
  · refine orderInv_storeAndAdvance d (domainInv_syncStepW e hd hres) (orderInv_syncStepW e ho)
      fun x hx => ?_
    have hknown : x ∈ readIndexHistory f :=
      linkHistory_took_subset (syncStepW_stepped e f).1 rfl hx
    have hview := (behindWrite_bounds hd ho hknown).2
    have hwritable := writableW_toNat f
    have hpos : f.writableW.toNat ≠ 0 := fun h0 => hfree (BitVec.eq_of_toNat_eq h0)
    show behindWrite f x + 1 < p.C
    omega

theorem orderInv_readEdge (e : Env) (en : Bool) (hd : DomainInv f) (ho : OrderInv f) :
    OrderInv (readEdge e f en) := by
  obtain ⟨-, hg⟩ | ⟨-, -, hg⟩ | ⟨-, hres, ⟨-, hg⟩ | ⟨-, -, hg⟩ | ⟨-, hrec, hg⟩⟩ :=
    readEdge_cases e f en <;> rw [hg]
  · exact ho
  · exact ho
  · exact orderInv_syncStepR e ho
  · exact orderInv_syncStepR e ho
  · refine orderInv_consumeAndAdvance (domainInv_syncStepR e hd hres) (orderInv_syncStepR e ho)
      fun x hx => ?_
    have hknown : x ∈ writeIndexHistory f :=
      linkHistory_took_subset (syncStepR_stepped e f).1 rfl hx
    have hview := (aheadOfRead_bounds hd ho hknown).1
    have hpos : f.readableR.toNat ≠ 0 := fun h0 => hrec (BitVec.eq_of_toNat_eq h0)
    show aheadOfRead f x ≠ 0
    omega

/-! ### Storage (log 8) -/

theorem storageInv_storeAndAdvance (d : Record p.W) (h : StorageInv f) :
    StorageInv (storeAndAdvance d f) :=
  Memory.wf_write h f.wr.wbin.isLt d

theorem storageInv_writeEdge (e : Env) (en : Bool) (d : Record p.W) (h : StorageInv f) :
    StorageInv (writeEdge e f en d) := by
  obtain ⟨-, hg⟩ | ⟨-, -, hg⟩ | ⟨-, -, ⟨-, hg⟩ | ⟨-, -, hg⟩ | ⟨-, -, -, hg⟩ | ⟨-, -, -, hg⟩⟩ :=
    writeEdge_cases e f en d <;> rw [hg]
  case inr.inr.inr.inr.inr => exact storageInv_storeAndAdvance (f := syncStepW e f) d h
  all_goals exact h

/-- Only the write port writes storage (41_read_port.md R120). -/
@[simp] theorem readEdge_storage (e : Env) (f : Fifo p) (en : Bool) :
    (readEdge e f en).storage = f.storage := by
  obtain ⟨-, hg⟩ | ⟨-, -, hg⟩ | ⟨-, -, ⟨-, hg⟩ | ⟨-, -, hg⟩ | ⟨-, -, hg⟩⟩ :=
    readEdge_cases e f en <;> rw [hg] <;> rfl

/-! ### All together -/

/-- A rise of `rst` establishes all invariants from every canonical storage. -/
theorem inv_forceReset (h : StorageInv f) : Inv (forceReset f) :=
  ⟨domainInv_forceReset f, resetInv_forceReset f, orderInv_forceReset f, h⟩

theorem inv_writeEdge (e : Env) (en : Bool) (d : Record p.W) (h : Inv f) :
    Inv (writeEdge e f en d) where
  domain := domainInv_writeEdge e en d h.domain
  reset := resetInv_writeEdge e en d h.reset
  order := orderInv_writeEdge e en d h.domain h.order
  storage := storageInv_writeEdge e en d h.storage

theorem inv_readEdge (e : Env) (en : Bool) (h : Inv f) : Inv (readEdge e f en) where
  domain := domainInv_readEdge e en h.domain
  reset := resetInv_readEdge e en h.reset
  order := orderInv_readEdge e en h.domain h.order
  storage := by
    rw [StorageInv, readEdge_storage]
    exact h.storage

/-- A fall of `rst` moves no index and no record; only the reset links see it. -/
theorem inv_dropReset (hrst : f.rst = true) (h : Inv f) : Inv (dropReset f) where
  domain := { h.domain with }
  reset := resetInv_dropReset hrst h.reset
  order := h.order
  storage := h.storage

theorem inv_kept : KeptByEvents Inv where
  on_writeEdge e en d h := inv_writeEdge e en d h
  on_readEdge e en h := inv_readEdge e en h
  on_forceReset h := inv_forceReset h.storage
  on_dropReset hrst h := inv_dropReset hrst h

end Invariants

/-! ### The statements -/

/-- Settles O38: a rise of `rst` puts every register at its reset value, and every edge either moves a
domain out of reset or leaves what a domain in reset has cleared. -/
theorem domainInvariantsHoldAfterTheFirstReset :
    Obligations.DomainInvariantsHoldAfterTheFirstReset := by
  refine ⟨fun p f e hrst => ⟨forceReset f, ?_, domainInv_forceReset f⟩, fun s t => domainInv_kept.step⟩
  rw [exec_rstAssert, hrst]
  rfl

/-- Settles O40: each part of the invariant is kept by each edge and each change of `rst`; for the
ordered views, an accepted push or pop moves every distance by one without a wrap. -/
theorem everyStepKeepsTheInvariants : Obligations.EveryStepKeepsTheInvariants :=
  fun _ _ => inv_kept.step

/-- Settles O37: the state right after reset is a state that a rise of `rst` leaves, with empty
storage. -/
theorem resetMeetsTheInvariants : Obligations.ResetMeetsTheInvariants := by
  have hreset : ∀ p : Params, Inv (State.resetOf p).fifo := fun p =>
    inv_forceReset (f := Fifo.reset p) (Memory.wf_nil p.C)
  exact ⟨hreset, hreset Config.testVectors⟩

end Sys2Proof.Machine
end

section
/-! PROOFS. The outputs of the block and what moves its indices and its overrun latch (10_state.md R22 to
R28, R41 to R47, 30_encoding.md R81). -/

namespace Sys2Proof.Machine

open Sys2Proof

section Outputs
variable {p : Params} {f : Fifo p}

/-! ### Counts and spans -/

theorem toNat_le_capacity (x : Index p.AW) : x.toNat ≤ p.C - 1 := Nat.le_sub_one_of_lt x.isLt

/-- A count is 0 as an index exactly when it is 0 as a number. -/
theorem decide_eq_zero_iff_toNat {n : Nat} (x : Index n) : decide (x = 0#n) = true ↔ x.toNat = 0 := by
  rw [decide_eq_true_iff, ← BitVec.toNat_inj, BitVec.toNat_zero]

theorem writableW_emod (f : Fifo p) :
    (f.writableW.toNat : Int) = ((f.wqRbin.toNat : Int) - f.wr.wbin.toNat - 1) % (p.C : Int) := by
  rw [Fifo.writableW, toNat_sub_eq_emod, toNat_sub_eq_emod, BitVec.toNat_one p.AW_pos,
    Int.emod_sub_emod]
  rfl

theorem readableR_emod (f : Fifo p) :
    (f.readableR.toNat : Int) = ((f.rqWbin.toNat : Int) - f.rd.rbin.toNat) % (p.C : Int) :=
  toNat_sub_eq_emod _ _

/-- The read side is empty exactly when its view of the write index equals its own index. -/
theorem rdEmpty_iff (f : Fifo p) : f.rdEmpty = true ↔ f.rqWbin = f.rd.rbin := by
  rw [Fifo.rdEmpty, decide_eq_true_iff, Fifo.readableR]
  exact sub_eq_zero

/-- A count cut at the wrap is an index: the cut only makes it smaller. -/
theorem toNat_ofNat_min_count (x : Index p.AW) (k : Nat) :
    (BitVec.ofNat p.AW (min x.toNat k)).toNat = min x.toNat k := by
  rw [BitVec.toNat_ofNat]
  exact Nat.mod_eq_of_lt ((Nat.min_le_left _ _).trans_lt x.isLt)

theorem wrSpan_toNat (f : Fifo p) :
    f.wrSpan.toNat = min f.writableW.toNat (p.C - f.wr.wbin.toNat) :=
  toNat_ofNat_min_count _ _

theorem rdSpan_toNat (f : Fifo p) :
    f.rdSpan.toNat = min f.readableR.toNat (p.C - f.rd.rbin.toNat) :=
  toNat_ofNat_min_count _ _

/-- With the read index seen at 0 the sentinel is the last slot before the wrap. -/
theorem writableW_toNat_of_view_zero (h : f.wqRbin = 0#p.AW) :
    f.writableW.toNat = p.C - 1 - f.wr.wbin.toNat := by
  have hbehind : behindWrite f f.wr.wsyncR.last = f.wr.wbin.toNat := by
    show (f.wr.wbin - f.wqRbin).toNat = _
    rw [h, BitVec.sub_zero]
  rw [writableW_toNat, hbehind]

/-- A read domain in reset sees no record: its view and its own index are both 0. -/
theorem rdEmpty_of_rInReset (hd : DomainInv f) (hres : f.rInReset = true) : f.rdEmpty = true := by
  obtain ⟨hbin, -, hsync⟩ := hd.read_cleared hres
  rw [rdEmpty_iff, Fifo.rqWbin, hsync, hbin, Chain.last_fill _ (Nat.le_of_succ_le p.NS_two), bin_zero]

/-! ### The status vectors -/

/-- The bits of a vector written out from bit 3 to bit 0. -/
theorem packedBits : ∀ a b c d : Bool,
    let v := BitVec.ofBool a ++ BitVec.ofBool b ++ BitVec.ofBool c ++ BitVec.ofBool d
    v.getLsbD 0 = d ∧ v.getLsbD 1 = c ∧ v.getLsbD 2 = b ∧ v.getLsbD 3 = a := by decide

/-! ### The head record -/

theorem rdData_of_not_empty (e : Env) (obs : Nat) (h : f.rdEmpty = false) :
    f.rdData e obs = Memory.read f.storage f.rd.rbin.toNat := by
  simp [Fifo.rdData, h]

/-- Slot `rbin` holds the oldest unread record whenever there is one (20_memory.md R58). -/
theorem contents_head (h : f.occupancy.toNat ≠ 0) :
    (contents f).head? = some (Memory.read f.storage f.rd.rbin.toNat) := by
  obtain ⟨k, hk⟩ := Nat.exists_eq_succ_of_ne_zero h
  simp [contents, hk, List.range_succ_eq_map]

/-- What the read side sees is there. -/
theorem occupancy_ne_zero_of_not_empty (hd : DomainInv f) (ho : OrderInv f) (h : f.rdEmpty = false) :
    f.occupancy.toNat ≠ 0 := by
  have hle := readableR_le_occupancy hd ho
  have hpos : f.readableR.toNat ≠ 0 :=
    mt (decide_eq_zero_iff_toNat f.readableR).2 (Bool.eq_false_iff.1 h)
  omega

/-! ### What an edge does to the indices and to the overrun latch -/

/-- A `wr_clk` edge changes no read-domain register. -/
@[simp] theorem writeEdge_rd (e : Env) (f : Fifo p) (en : Bool) (d : Record p.W) :
    (writeEdge e f en d).rd = f.rd := by
  obtain ⟨-, hg⟩ | ⟨-, -, hg⟩ | ⟨-, -, ⟨-, hg⟩ | ⟨-, -, hg⟩ | ⟨-, -, -, hg⟩ | ⟨-, -, -, hg⟩⟩ :=
    writeEdge_cases e f en d <;> rw [hg] <;> rfl

/-- An `rd_clk` edge changes no write-domain register. -/
@[simp] theorem readEdge_wr (e : Env) (f : Fifo p) (en : Bool) : (readEdge e f en).wr = f.wr := by
  obtain ⟨-, hg⟩ | ⟨-, -, hg⟩ | ⟨-, -, ⟨-, hg⟩ | ⟨-, -, hg⟩ | ⟨-, -, hg⟩⟩ :=
    readEdge_cases e f en <;> rw [hg] <;> rfl

theorem writeEdge_accepted (e : Env) (d : Record p.W) (h : PushAccepted f) :
    writeEdge e f true d = storeAndAdvance d (syncStepW e f) := by
  obtain ⟨hrst, hres, hovf, hfree⟩ := h
  simp only [writeEdge, writeCase_accepted hrst hres hovf hfree]

/-- A `wr_clk` edge that accepts no push moves no index and stores nothing. -/
theorem writeEdge_not_accepted (e : Env) (en : Bool) (d : Record p.W)
    (h : ¬ (en = true ∧ PushAccepted f)) :
    (writeEdge e f en d).wr.wbin = f.wr.wbin ∧ (writeEdge e f en d).storage = f.storage := by
  obtain ⟨-, hg⟩ | ⟨-, -, hg⟩ |
      ⟨hrst, hres, ⟨-, hg⟩ | ⟨-, -, hg⟩ | ⟨-, -, -, hg⟩ | ⟨hen, hovf, hfree, hg⟩⟩ :=
    writeEdge_cases e f en d
  case inr.inr.inr.inr.inr => exact absurd ⟨hen, hrst, hres, hovf, hfree⟩ h
  all_goals rw [hg]; exact ⟨rfl, rfl⟩

theorem writeEdge_wbin_cases (e : Env) (f : Fifo p) (en : Bool) (d : Record p.W) :
    (writeEdge e f en d).wr.wbin = f.wr.wbin ∨
      ((writeEdge e f en d).wr.wbin = f.wr.wbin + 1#p.AW ∧ en = true ∧ PushAccepted f) := by
  by_cases h : en = true ∧ PushAccepted f
  · obtain ⟨rfl, hacc⟩ := h
    rw [writeEdge_accepted e d hacc]
    exact .inr ⟨rfl, rfl, hacc⟩
  · exact .inl (writeEdge_not_accepted e en d h).1

theorem readEdge_rbin_cases (e : Env) (f : Fifo p) (en : Bool) :
    (readEdge e f en).rd.rbin = f.rd.rbin ∨
      ((readEdge e f en).rd.rbin = f.rd.rbin + 1#p.AW ∧ en = true ∧ PopAccepted f) := by
  obtain ⟨-, hg⟩ | ⟨-, -, hg⟩ | ⟨hrst, hres, ⟨-, hg⟩ | ⟨-, -, hg⟩ | ⟨hen, hrec, hg⟩⟩ :=
    readEdge_cases e f en <;> rw [hg]
  case inr.inr.inr.inr => exact .inr ⟨rfl, hen, hrst, hres, hrec⟩
  all_goals exact .inl rfl

/-- Only a release edge clears the overrun latch, and then the write domain leaves reset. -/
theorem writeEdge_clears_ovf (e : Env) (en : Bool) (d : Record p.W) (hf : f.wr.ovf = true)
    (hg : (writeEdge e f en d).wr.ovf = false) :
    f.rst = false ∧ f.wInReset = true ∧ (writeEdge e f en d).wInReset = false := by
  obtain ⟨-, h⟩ | ⟨hrst, hres, h⟩ | ⟨-, -, ⟨-, h⟩ | ⟨-, -, h⟩ | ⟨-, hovf, -, h⟩ | ⟨-, hovf, -, h⟩⟩ :=
    writeEdge_cases e f en d <;> rw [h] at hg ⊢
  · simp [hf] at hg
  · exact ⟨hrst, hres, releaseStepW_wInReset e f ▸ hg⟩
  · simp [hf] at hg
  · simp [hf] at hg
  · simp at hg
  · simp [hf] at hovf

/-- `wr_ready` says that the next push is accepted: with `rst = 1` the write domain is in reset. -/
theorem wrReady_iff_pushAccepted (h : ResetInv f) : f.wrReady = true ↔ PushAccepted f := by
  have hrst : f.wInReset = false → f.rst = false := fun hres =>
    Bool.eq_false_iff.2 fun hr => Bool.eq_false_iff.1 hres (wInReset_of_rst h hr)
  simp only [Fifo.wrReady, Fifo.wrFull, PushAccepted, Bool.and_eq_true, Bool.not_eq_true',
    decide_eq_false_iff_not]
  constructor
  · rintro ⟨⟨hfree, hovf⟩, hres⟩
    exact ⟨hrst hres, hres, hovf, hfree⟩
  · rintro ⟨-, hres, hovf, hfree⟩
    exact ⟨⟨hfree, hovf⟩, hres⟩

end Outputs

/-! ### The statements -/

/-- Settles O18: under the invariants `wr_ready` is the condition of acceptance, and an edge that
accepts nothing moves and stores nothing. -/
theorem wrReadyDecidesThePush : Obligations.WrReadyDecidesThePush := by
  intro p f e d obs hinv hd
  have hiff := wrReady_iff_pushAccepted hinv.reset
  refine ⟨_, exec_push hd, fun hready => ?_, fun hnot => ?_, fun hres => ?_, rfl, rfl⟩
  · have hacc : PushAccepted f := hiff.1 hready
    rw [writeEdge_accepted e _ hacc]
    obtain ⟨-, -, hovf, -⟩ := hacc
    exact ⟨rfl, Memory.read_write_same _ _ _, hovf⟩
  · have hrej : ¬ PushAccepted f := mt hiff.2 (Bool.eq_false_iff.1 hnot)
    obtain ⟨hbin, hstore⟩ :=
      writeEdge_not_accepted e true (BitVec.ofNat p.W d) fun h => hrej h.2
    exact ⟨hbin, fun a => by rw [hstore]⟩
  · show f.wrReady = false
    simp [Fifo.wrReady, hres]

/-- Settles O23: the counts are differences of indices modulo `C`, and the flags say that they are 0. -/
theorem countsFollowTheFormulas : Obligations.CountsFollowTheFormulas := by
  intro p f e obs
  exact ⟨writableW_emod f, toNat_le_capacity _, decide_eq_zero_iff_toNat _, readableR_emod f,
    toNat_le_capacity _, decide_eq_zero_iff_toNat _, rdEmpty_iff f⟩

/-- Settles O24: a cut count is still an index, the sentinel is before the wrap when the read index is
seen at 0, and a read domain in reset has equal indices. -/
theorem spansAreCountsCutAtTheWrap : Obligations.SpansAreCountsCutAtTheWrap := by
  intro p f e obs
  refine ⟨rfl, wrSpan_toNat f, toNat_le_capacity _, fun hview => ?_, rfl, rdSpan_toNat f,
    toNat_le_capacity _, ?_, fun hd hres => ?_⟩
  · have hcount := writableW_toNat_of_view_zero hview
    refine ⟨hcount, (wrSpan_toNat f).trans ?_⟩
    omega
  · simp [State.outputs, Fifo.rdReady]
  · exact ⟨rdEmpty_of_rInReset hd hres, by simp [State.outputs, Fifo.rdReady, hres]⟩

/-- Settles O25: each flag output is its register, and each status bit is the output the rule lists. -/
theorem flagOutputsAndStatusVectors : Obligations.FlagOutputsAndStatusVectors := by
  intro p f e obs
  obtain ⟨hready, hfull, hovf, hudf⟩ :=
    packedBits f.wrUnderrun f.wrOverrun f.wrFull f.wrReady
  exact ⟨rfl, rfl, rfl, rfl, hready, hfull, hovf, hudf, packedBits _ _ _ _⟩

/-- Settles O26: while the read side is not empty `rd_data` is slot `rbin`, and what the read side sees
is never more than what is there, so that slot is the head of the queue. -/
theorem readDataShowsTheHeadRecord : Obligations.ReadDataShowsTheHeadRecord := by
  intro p f e obs _ hempty
  have hdata := rdData_of_not_empty e obs hempty
  refine ⟨hdata, fun hinv => ?_⟩
  exact (contents_head (occupancy_ne_zero_of_not_empty hinv.domain hinv.order hempty)).trans
    (congrArg some hdata.symm)

/-- Settles O49: an edge moves only the index of its own side and only when it accepts, and a rise of
`rst` makes both 0. -/
theorem indicesAdvanceOnlyByAcceptedOperations :
    Obligations.IndicesAdvanceOnlyByAcceptedOperations := by
  intro p f g e i h
  obtain ⟨g', hg, ⟨d, rfl, -, rfl⟩ | ⟨x, rfl, rfl⟩ | ⟨rfl, rfl⟩ | ⟨rfl, rfl⟩ | ⟨rfl, rfl⟩ |
    ⟨rfl, rfl⟩⟩ := exec_next_cases h <;> cases hg
  · rw [writeEdge_rd]
    refine ⟨(writeEdge_wbin_cases e f true _).imp_right fun ⟨hbin, _, hacc⟩ => .inl ?_, .inl rfl⟩
    exact ⟨hbin, ⟨d, rfl⟩, hacc⟩
  · rw [writeEdge_rd]
    exact ⟨.inl (writeEdge_not_accepted e false _ (by simp)).1, .inl rfl⟩
  · rw [readEdge_wr]
    refine ⟨.inl rfl, (readEdge_rbin_cases e f true).imp_right fun ⟨hbin, _, hacc⟩ => .inl ?_⟩
    exact ⟨hbin, rfl, hacc⟩
  · rw [readEdge_wr]
    exact ⟨.inl rfl, (readEdge_rbin_cases e f false).imp_right fun ⟨_, hen, _⟩ => nomatch hen⟩
  · cases hrst : f.rst
    · exact ⟨.inr (.inr ⟨rfl, rfl, rfl⟩), .inr (.inr ⟨rfl, rfl, rfl⟩)⟩
    · exact ⟨.inl rfl, .inl rfl⟩
  · cases hrst : f.rst <;> exact ⟨.inl rfl, .inl rfl⟩

/-- Settles O50: only a release edge of the write port clears the latch; a rise of `rst` sets it. -/
theorem overrunClearsOnlyAtResetRelease : Obligations.OverrunClearsOnlyAtResetRelease := by
  intro p f g e i h hf hclear
  obtain ⟨g', hg, ⟨d, rfl, -, rfl⟩ | ⟨x, rfl, rfl⟩ | ⟨rfl, rfl⟩ | ⟨rfl, rfl⟩ | ⟨rfl, rfl⟩ |
    ⟨rfl, rfl⟩⟩ := exec_next_cases h <;> cases hg
  · exact ⟨rfl, writeEdge_clears_ovf e _ _ hf hclear⟩
  · exact ⟨rfl, writeEdge_clears_ovf e _ _ hf hclear⟩
  · rw [readEdge_wr, hf] at hclear; cases hclear
  · rw [readEdge_wr, hf] at hclear; cases hclear
  · cases hrst : f.rst <;> simp [hrst, hf] at hclear
  · cases hrst : f.rst <;> simp [hrst, hf] at hclear

end Sys2Proof.Machine
end

section
/-! PROOFS. The storage as a queue: the bounds of the two counts, the slots of the unread records, what
every operation does to the queue, and the records along a run (20_memory.md R52, R58 to R63). -/

namespace Sys2Proof.Machine

open Sys2Proof

section Storage
variable {p : Params} {f : Fifo p}

/-! ### The counts against the truth (20_memory.md R59 to R61) -/

/-- The write domain never sees more free slots than there are (20_memory.md R60). -/
theorem writableW_le_free (hd : DomainInv f) (ho : OrderInv f) :
    f.writableW.toNat ≤ p.C - 1 - f.occupancy.toNat := by
  obtain ⟨hlow, hhigh⟩ := behindWrite_bounds hd ho (cur_mem_linkHistory _ _ _)
  rw [writableW_toNat]
  exact Nat.sub_le_sub_left (hlow.trans hhigh) _

/-- An accepted push has room for its record and for the sentinel. -/
theorem occupancy_succ_lt_of_pushAccepted (h : Inv f) (hacc : PushAccepted f) :
    f.occupancy.toNat + 1 < p.C := by
  obtain ⟨-, -, -, hfree⟩ := hacc
  have hle := writableW_le_free h.domain h.order
  have hpos : f.writableW.toNat ≠ 0 := fun h0 => hfree (BitVec.eq_of_toNat_eq h0)
  omega

theorem not_rdEmpty_of_popAccepted (hacc : PopAccepted f) : f.rdEmpty = false := by
  obtain ⟨-, -, hrec⟩ := hacc
  exact decide_eq_false hrec

/-- In a settled state the read domain sees every record (20_memory.md R61). -/
theorem readableR_of_settled (hd : DomainInv f) (hs : Settled f) : f.readableR = f.occupancy := by
  rw [Fifo.readableR, Fifo.rqWbin, hs.rsyncW_eq, Chain.last_fill _ (Nat.le_of_succ_le p.NS_two),
    hd.wgray_eq, bin_gray, Fifo.occupancy]

/-- In a settled state the write domain sees every free slot (20_memory.md R61). -/
theorem writableW_of_settled (hd : DomainInv f) (hs : Settled f) :
    f.writableW.toNat = p.C - 1 - f.occupancy.toNat := by
  rw [writableW_toNat, hs.wsyncR_eq, Chain.last_fill _ (Nat.le_of_succ_le p.NS_two),
    behindWrite_rgray hd]

/-! ### The slots of the unread records (20_memory.md R58) -/

/-- The slot to be written next holds no unread record. -/
theorem unreadSlot_ne_wbin {k : Nat} (hk : k < f.occupancy.toNat) :
    f.rd.rbin + BitVec.ofNat p.AW k ≠ f.wr.wbin := by
  intro heq
  have hocc : f.occupancy = BitVec.ofNat p.AW k := by
    rw [Fifo.occupancy, ← heq, add_sub_cancel_left]
  have hle : f.occupancy.toNat ≤ k := by
    rw [hocc, BitVec.toNat_ofNat]
    exact Nat.mod_le _ _
  omega

/-- The slot after the unread records is the one to be written next. -/
theorem rbin_add_occupancy (f : Fifo p) :
    f.rd.rbin + BitVec.ofNat p.AW f.occupancy.toNat = f.wr.wbin := by
  rw [BitVec.ofNat_toNat, BitVec.setWidth_eq, Fifo.occupancy, add_sub_cancel]

/-! ### What an edge does to the storage -/

/-- A `wr_clk` edge writes no slot but `wbin`. -/
theorem writeEdge_read_other (e : Env) (en : Bool) (d : Record p.W) {a : Nat}
    (ha : a ≠ f.wr.wbin.toNat) :
    Memory.read (writeEdge e f en d).storage a = Memory.read f.storage a := by
  by_cases h : en = true ∧ PushAccepted f
  · obtain ⟨rfl, hacc⟩ := h
    rw [writeEdge_accepted e d hacc]
    exact Memory.read_write_other f.storage d ha
  · rw [(writeEdge_not_accepted e en d h).2]

theorem readEdge_accepted (e : Env) (h : PopAccepted f) :
    readEdge e f true = consumeAndAdvance (syncStepR e f) := by
  obtain ⟨hrst, hres, hrec⟩ := h
  simp only [readEdge, readCase_accepted hrst hres hrec]

theorem readEdge_rbin_not_accepted (e : Env) (en : Bool) (h : ¬ (en = true ∧ PopAccepted f)) :
    (readEdge e f en).rd.rbin = f.rd.rbin :=
  (readEdge_rbin_cases e f en).resolve_right fun ⟨_, hacc⟩ => h hacc

/-- What the slots hold steers no `wr_clk` edge. -/
theorem writeEdge_withStorage (e : Env) (f : Fifo p) (m : Memory p.W) (en : Bool) (d : Record p.W) :
    ∃ m', writeEdge e { f with storage := m } en d =
      { writeEdge e f en d with storage := m' } := by
  have hcase : Fifo.writeCase { f with storage := m } en = f.writeCase en := rfl
  unfold writeEdge
  rw [hcase]
  cases f.writeCase en <;> exact ⟨_, rfl⟩

/-- What the slots hold steers no `rd_clk` edge. -/
theorem readEdge_withStorage (e : Env) (f : Fifo p) (m : Memory p.W) (en : Bool) :
    readEdge e { f with storage := m } en = { readEdge e f en with storage := m } := by
  have hcase : Fifo.readCase { f with storage := m } en = f.readCase en := rfl
  unfold readEdge
  rw [hcase]
  cases f.readCase en <;> rfl

/-! ### What an edge does to the queue (20_memory.md R62) -/

/-- The queue is a matter of the two indices and the storage. -/
theorem contents_congr {g : Fifo p} (hw : g.wr.wbin = f.wr.wbin) (hr : g.rd.rbin = f.rd.rbin)
    (hs : g.storage = f.storage) : contents g = contents f := by
  simp only [contents, Fifo.occupancy, hw, hr, hs]

/-- A fall of `rst` moves no index and no record. -/
theorem contents_dropReset (f : Fifo p) : contents (dropReset f) = contents f :=
  contents_congr rfl rfl rfl

/-- A rise of `rst` leaves equal indices, and so no record. -/
theorem contents_forceReset (f : Fifo p) : contents (forceReset f) = [] := by
  simp [contents, Fifo.occupancy]

/-- An accepted push leaves the unread slots alone and puts its record behind them. -/
theorem contents_storeAndAdvance (d : Record p.W) (hroom : f.occupancy.toNat + 1 < p.C) :
    contents (storeAndAdvance d f) = contents f ++ [d] := by
  have hocc : (storeAndAdvance d f).occupancy.toNat = f.occupancy.toNat + 1 :=
    toNat_succ_sub p.AW_pos hroom
  rw [contents, hocc, List.range_succ, List.map_append, List.map_singleton]
  congr 1
  · refine List.map_congr_left fun k hk => Memory.read_write_other f.storage d ?_
    exact mt BitVec.eq_of_toNat_eq (unreadSlot_ne_wbin (List.mem_range.1 hk))
  · rw [storeAndAdvance_rd, rbin_add_occupancy, storeAndAdvance_storage, Memory.read_write_same]

/-- An accepted pop takes slot `rbin`; the slots behind it are counted from one further on. -/
theorem contents_consumeAndAdvance (h : f.occupancy.toNat ≠ 0) :
    contents f = Memory.read f.storage f.rd.rbin.toNat :: contents (consumeAndAdvance f) := by
  have hocc : f.occupancy.toNat = (consumeAndAdvance f).occupancy.toNat + 1 :=
    (toNat_sub_succ p.AW_pos h).symm
  have hslot : ∀ k, f.rd.rbin + BitVec.ofNat p.AW (k + 1) =
      f.rd.rbin + 1#p.AW + BitVec.ofNat p.AW k := fun k => by
    rw [Nat.add_comm k 1, BitVec.ofNat_add, BitVec.add_assoc]
  rw [contents, hocc, List.range_succ_eq_map, List.map_cons, List.map_map, BitVec.add_zero]
  refine congrArg (_ :: ·) (List.map_congr_left fun k _ => ?_)
  exact congrArg (fun slot : Index p.AW => Memory.read f.storage slot.toNat) (hslot k)

theorem contents_writeEdge_accepted (e : Env) (d : Record p.W) (h : Inv f) (hacc : PushAccepted f) :
    contents (writeEdge e f true d) = contents f ++ [d] := by
  have hroom : f.occupancy.toNat + 1 < p.C := occupancy_succ_lt_of_pushAccepted h hacc
  rw [writeEdge_accepted e d hacc]
  exact contents_storeAndAdvance (f := syncStepW e f) d hroom

theorem contents_writeEdge_not_accepted (e : Env) (en : Bool) (d : Record p.W)
    (h : ¬ (en = true ∧ PushAccepted f)) : contents (writeEdge e f en d) = contents f := by
  obtain ⟨hbin, hstore⟩ := writeEdge_not_accepted e en d h
  exact contents_congr hbin (by rw [writeEdge_rd]) hstore

theorem contents_readEdge_accepted (e : Env) (h : Inv f) (hacc : PopAccepted f) :
    contents f = Memory.read f.storage f.rd.rbin.toNat :: contents (readEdge e f true) := by
  have hsome : f.occupancy.toNat ≠ 0 :=
    occupancy_ne_zero_of_not_empty h.domain h.order (not_rdEmpty_of_popAccepted hacc)
  rw [readEdge_accepted e hacc]
  exact contents_consumeAndAdvance (f := syncStepR e f) hsome

theorem contents_readEdge_not_accepted (e : Env) (en : Bool) (h : ¬ (en = true ∧ PopAccepted f)) :
    contents (readEdge e f en) = contents f :=
  contents_congr (by rw [readEdge_wr]) (readEdge_rbin_not_accepted e en h) (readEdge_storage e f en)

/-! ### What an operation does to the queue -/

/-- The records an operation adds to the queue: that of an accepted push. -/
def acceptedBy (f : Fifo p) : Instr → List (Record p.W)
  | .push d => if PushAccepted f then [BitVec.ofNat p.W d] else []
  | _ => []

/-- The records an operation takes from the queue: slot `rbin` at an accepted pop. -/
def handedOverBy (f : Fifo p) : Instr → List (Record p.W)
  | .pop => if PopAccepted f then [Memory.read f.storage f.rd.rbin.toNat] else []
  | _ => []

theorem acceptedBy_push (d : Nat) (h : PushAccepted f) :
    acceptedBy f (.push d) = [BitVec.ofNat p.W d] := if_pos h

theorem acceptedBy_push_rejected (d : Nat) (h : ¬ PushAccepted f) : acceptedBy f (.push d) = [] :=
  if_neg h

theorem handedOverBy_pop (h : PopAccepted f) :
    handedOverBy f .pop = [Memory.read f.storage f.rd.rbin.toNat] := if_pos h

theorem handedOverBy_pop_rejected (h : ¬ PopAccepted f) : handedOverBy f .pop = [] := if_neg h

/-- No operation but a rise of `rst` loses, invents or reorders a record. -/
theorem contents_append_accepted {g : Fifo p} {e : Env} {i : Instr} (h : Inv f)
    (hexec : exec i ⟨p, f, e⟩ = .next ⟨p, g, e⟩) (hrise : i = .rstAssert → f.rst = true) :
    contents f ++ acceptedBy f i = handedOverBy f i ++ contents g := by
  obtain ⟨g', hg, ⟨d, rfl, -, rfl⟩ | ⟨x, rfl, rfl⟩ | ⟨rfl, rfl⟩ | ⟨rfl, rfl⟩ | ⟨rfl, rfl⟩ |
    ⟨rfl, rfl⟩⟩ := exec_next_cases hexec <;> cases hg
  · by_cases hacc : PushAccepted f
    · simp [acceptedBy_push d hacc, handedOverBy, contents_writeEdge_accepted e _ h hacc]
    · simp [acceptedBy_push_rejected d hacc, handedOverBy,
        contents_writeEdge_not_accepted e true _ fun hen => hacc hen.2]
  · simp [acceptedBy, handedOverBy, contents_writeEdge_not_accepted e false]
  · by_cases hacc : PopAccepted f
    · simpa [acceptedBy, handedOverBy_pop hacc] using contents_readEdge_accepted e h hacc
    · simp [acceptedBy, handedOverBy_pop_rejected hacc,
        contents_readEdge_not_accepted e true fun hen => hacc hen.2]
  · simp [acceptedBy, handedOverBy, contents_readEdge_not_accepted e false]
  · simp [acceptedBy, handedOverBy, hrise rfl]
  · simp only [acceptedBy, handedOverBy, List.append_nil, List.nil_append]
    split
    · exact (contents_dropReset f).symm
    · rfl

/-- A well-formed operation answers a next state, with the same parameters and environment. -/
theorem exec_next_of_wf (f : Fifo p) (e : Env) {i : Instr} (hwf : i.wf p.W = true) :
    ∃ g : Fifo p, exec i ⟨p, f, e⟩ = .next ⟨p, g, e⟩ := by
  cases i with
  | push d => exact ⟨_, exec_push (of_decide_eq_true hwf)⟩
  | widle x => exact ⟨_, exec_widle f e x⟩
  | pop => exact ⟨_, exec_pop f e⟩
  | ridle => exact ⟨_, exec_ridle f e⟩
  | rstAssert => exact ⟨_, exec_rstAssert f e⟩
  | rstRelease => exact ⟨_, exec_rstRelease f e⟩

/-- No operation writes a slot but `wbin`. -/
theorem exec_read_other {g : Fifo p} {e : Env} {i : Instr}
    (hexec : exec i ⟨p, f, e⟩ = .next ⟨p, g, e⟩) {a : Nat} (ha : a ≠ f.wr.wbin.toNat) :
    Memory.read g.storage a = Memory.read f.storage a := by
  obtain ⟨g', hg, ⟨d, -, -, rfl⟩ | ⟨x, -, rfl⟩ | ⟨-, rfl⟩ | ⟨-, rfl⟩ | ⟨-, rfl⟩ | ⟨-, rfl⟩⟩ :=
    exec_next_cases hexec <;> cases hg
  · exact writeEdge_read_other e true _ ha
  · exact writeEdge_read_other e false _ ha
  · rw [readEdge_storage]
  · rw [readEdge_storage]
  · cases f.rst <;> rfl
  · cases f.rst <;> rfl

end Storage

/-! ### The queue along a run (20_memory.md R62) -/

/-- The operation of the oldest event is the next one. -/
theorem nextInstr_of_pending {s : State} {ev : PinEvent} {rest : List PinEvent} {i : Instr}
    (hp : s.env.pending = ev :: rest) (hd : decode s.cfg.W ev = .ok i) : nextInstr s = some i := by
  simp [nextInstr, hp, hd, Except.toOption]

theorem nextInstr_of_waiting {s : State} (hp : s.env.pending = []) : nextInstr s = none := by
  simp [nextInstr, hp]

/-- A push that completes carries a record of `W` bits. -/
theorem push_lt_of_exec_next {d : Nat} {s t : State} (h : exec (.push d) s = .next t) :
    d < 2 ^ s.cfg.W := by
  by_contra hd
  rw [exec_push_wide hd] at h
  cases h

/-- The record a step accepts is the one its operation adds to the queue. -/
theorem pushedNext_eq {s t : State} {e : Env} {i : Instr} (hi : nextInstr s = some i)
    (h : exec i ⟨s.cfg, s.fifo, e⟩ = .next t) :
    pushedNext s = (acceptedBy s.fifo i).map BitVec.toNat := by
  cases i with
  | push d =>
    have hd := push_lt_of_exec_next h
    simp only [pushedNext, hi, acceptedBy]
    split
    · simp [Nat.mod_eq_of_lt hd]
    · rfl
  | _ => simp [pushedNext, hi, acceptedBy]

/-- The record a step hands over is the one its operation takes from the queue. -/
theorem poppedNext_eq {s : State} {i : Instr} (hi : nextInstr s = some i) :
    poppedNext s = (handedOverBy s.fifo i).map BitVec.toNat := by
  cases i with
  | pop =>
    simp only [poppedNext, hi, handedOverBy]
    split
    · simp [rdData_of_not_empty s.env 0 (not_rdEmpty_of_popAccepted ‹_›)]
    · rfl
  | _ => simp [poppedNext, hi, handedOverBy]

/-- No step but a rise of `rst` loses, invents or reorders a record. -/
theorem queue_append_pushedNext {s t : State} (hinv : Inv s.fifo) (h : step s = .next t)
    (hrise : risesNext s = false) : s.queue ++ pushedNext s = poppedNext s ++ t.queue := by
  obtain ⟨hp, rfl⟩ | ⟨ev, rest, i, hp, hdec, hexec⟩ := step_next_cases h
  · simp [pushedNext, poppedNext, nextInstr_of_waiting hp]
  · have hi := nextInstr_of_pending hp hdec
    obtain ⟨g, rfl, -⟩ := exec_next_cases hexec
    have hkeep : i = .rstAssert → s.fifo.rst = true := by
      rintro rfl
      simpa [risesNext, hi] using hrise
    rw [pushedNext_eq hi hexec, poppedNext_eq hi, State.queue, State.queue, ← List.map_append,
      ← List.map_append, contents_append_accepted hinv hexec hkeep]

theorem queue_append_pushedIn {k : Nat} {s t : State} (hinv : Inv s.fifo) (hrun : run k s = .next t)
    (hrise : noRiseIn k s = true) : s.queue ++ pushedIn k s = poppedIn k s ++ t.queue := by
  induction k generalizing s with
  | zero =>
    cases hrun
    simp [pushedIn, poppedIn]
  | succ k ih =>
    obtain ⟨u, hstep, hrest⟩ := run_succ_cases hrun
    simp only [noRiseIn, hstep, Bool.and_eq_true, Bool.not_eq_true'] at hrise
    obtain ⟨hfirst, hlater⟩ := hrise
    simp only [pushedIn, poppedIn, hstep]
    calc s.queue ++ (pushedNext s ++ pushedIn k u)
        = (poppedNext s ++ u.queue) ++ pushedIn k u := by
          rw [← List.append_assoc, queue_append_pushedNext hinv hstep hfirst]
      _ = poppedNext s ++ poppedIn k u ++ t.queue := by
          rw [List.append_assoc, ih (inv_kept.step hinv hstep) hrest hlater, List.append_assoc]

/-! ### The statements -/

/-- Settles O44: every operation but a rise of `rst` keeps the records, with those it accepts behind and
those it hands over in front; the operation says which there are. -/
theorem blockRefinesAQueue : Obligations.BlockRefinesAQueue := by
  intro p f e i hinv hwf
  obtain ⟨g, hexec⟩ := exec_next_of_wf f e hwf
  have hkeep := contents_append_accepted hinv hexec
  refine ⟨g, hexec, ?push, ?pop, ?rise, ?other⟩
  case push =>
    rintro d rfl hacc
    simpa [acceptedBy_push d hacc, handedOverBy] using (hkeep nofun).symm
  case pop =>
    rintro rfl hacc obs
    have hdata : (State.outputs ⟨p, f, e⟩ obs).rdData = _ :=
      rdData_of_not_empty e obs (not_rdEmpty_of_popAccepted hacc)
    simpa [acceptedBy, handedOverBy_pop hacc, hdata] using hkeep nofun
  case rise =>
    rintro rfl hrst
    rw [exec_rstAssert, hrst] at hexec
    cases hexec
    exact contents_forceReset f
  case other =>
    intro hpush hpop hrise
    have hsame := hkeep hrise
    cases i with
    | push d => simpa [acceptedBy_push_rejected d (hpush d rfl), handedOverBy] using hsame.symm
    | pop => simpa [acceptedBy, handedOverBy_pop_rejected (hpop rfl)] using hsame.symm
    | _ => simpa [acceptedBy, handedOverBy] using hsame.symm

/-- Settles O45, by induction on the number of steps: each step moves records only from its accepted push
to its accepted pop, in order. -/
theorem runsDeliverEveryRecordInOrder : Obligations.RunsDeliverEveryRecordInOrder := by
  intro k s t hinv hrun hrise
  have hkeep := queue_append_pushedIn hinv hrun hrise
  refine ⟨hkeep, fun hempty => ⟨t.queue, ?_⟩⟩
  rw [← hkeep, State.queue, hempty, List.map_nil, List.nil_append]

/-- Settles O41: what a view shows lies on its link's history between the truth and its oldest value. -/
theorem viewsNeverExceedTheTruth : Obligations.ViewsNeverExceedTheTruth :=
  fun _ _ hinv => ⟨readableR_le_occupancy hinv.domain hinv.order,
    writableW_le_free hinv.domain hinv.order, toNat_le_capacity _⟩

/-- Settles O42: the bounds of the counts add up, and in a settled state both are met. -/
theorem sumLawOfTheCounts : Obligations.SumLawOfTheCounts := by
  intro p f hinv
  obtain ⟨hread, hwrite, hocc⟩ := viewsNeverExceedTheTruth p f hinv
  refine ⟨by omega, fun hs => ?_⟩
  have hr := readableR_of_settled hinv.domain hs
  have hw := writableW_of_settled hinv.domain hs
  refine ⟨hr, hw, ?_⟩
  rw [hr, hw]
  omega

/-- Settles O43: an operation writes no slot but `wbin`, and `wbin` is no unread slot; with equal indices
there is no record, and the read side sees no more than there is. -/
theorem unreadSlotsAreNeverWritten : Obligations.UnreadSlotsAreNeverWritten := by
  intro p f e i hinv hwf
  obtain ⟨g, hexec⟩ := exec_next_of_wf f e hwf
  refine ⟨g, hexec, fun k hk => ?_, fun heq => ?_⟩
  · have hne := unreadSlot_ne_wbin hk
    exact ⟨hne, exec_read_other hexec (mt BitVec.eq_of_toNat_eq hne)⟩
  · have hocc : f.occupancy = 0#p.AW := by rw [Fifo.occupancy, heq, BitVec.sub_self]
    have hle := readableR_le_occupancy hinv.domain hinv.order
    rw [hocc, BitVec.toNat_zero] at hle
    exact ⟨hocc, BitVec.eq_of_toNat_eq (Nat.le_zero.1 hle)⟩

/-- Settles O48: the case of an edge is chosen from the registers alone, and only the value written to a
slot depends on the port. -/
theorem recordsNeverSteerTheBlock : Obligations.RecordsNeverSteerTheBlock := by
  intro p f m e i hwf
  cases i with
  | push d =>
    obtain ⟨m', hm⟩ := writeEdge_withStorage e f m true (BitVec.ofNat p.W d)
    have hd : d < 2 ^ p.W := of_decide_eq_true hwf
    exact ⟨_, m', exec_push hd, by rw [exec_push hd, hm]⟩
  | widle x =>
    obtain ⟨m', hm⟩ := writeEdge_withStorage e f m false (BitVec.ofNat p.W x)
    exact ⟨_, m', exec_widle f e x, by rw [exec_widle, hm]⟩
  | pop => exact ⟨_, m, exec_pop f e, by rw [exec_pop, readEdge_withStorage]⟩
  | ridle => exact ⟨_, m, exec_ridle f e, by rw [exec_ridle, readEdge_withStorage]⟩
  | rstAssert =>
    refine ⟨_, m, exec_rstAssert f e, ?_⟩
    rw [exec_rstAssert]
    dsimp only
    split <;> rfl
  | rstRelease =>
    refine ⟨_, m, exec_rstRelease f e, ?_⟩
    rw [exec_rstRelease]
    dsimp only
    split <;> rfl

end Sys2Proof.Machine
end

section
/-! PROOFS. The decoder and the encoder (30_encoding.md R71 to R75): each port vector is the encoding of
exactly one operation, and the decoder finds it. -/

namespace Sys2Proof

/-! ### The parts of an event -/

@[simp] theorem withDraw_vec (d : DrawSel) (ev : PinEvent) : (ev.withDraw d).vec = ev.vec := by
  cases ev <;> rfl

@[simp] theorem withDraw_format (d : DrawSel) (ev : PinEvent) :
    (ev.withDraw d).format = ev.format := by cases ev <;> rfl

@[simp] theorem withDraw_dutyMet (d : DrawSel) (ev : PinEvent) :
    (ev.withDraw d).dutyMet = ev.dutyMet := by cases ev <;> rfl

@[simp] theorem eventOfBits_vec (fmt : Format) (bits : List Bool) :
    (eventOfBits fmt bits).vec = bits.map levelOfBit := by cases fmt <;> rfl

@[simp] theorem eventOfBits_format (fmt : Format) (bits : List Bool) :
    (eventOfBits fmt bits).format = fmt := by cases fmt <;> rfl

@[simp] theorem eventOfBits_dutyMet (fmt : Format) (bits : List Bool) :
    (eventOfBits fmt bits).dutyMet = true := by cases fmt <;> rfl

/-- An event with its duties met is made of its port, its bits and its draw directive. -/
theorem eventOfBits_withDraw {ev : PinEvent} {bits : List Bool} (hduty : ev.dutyMet = true)
    (hvec : ev.vec = bits.map levelOfBit) :
    (eventOfBits ev.format bits).withDraw ev.drawSel = ev := by
  cases ev with
  | wrEdge vec duty draw => rw [show vec = _ from hvec, show duty = .met from eq_of_beq hduty]; rfl
  | rdEdge vec duty draw => rw [show vec = _ from hvec, show duty = .met from eq_of_beq hduty]; rfl
  | rstLevel vec duty => rw [show vec = _ from hvec, show duty = .met from eq_of_beq hduty]; rfl

/-- An event with its duties met breaks none. -/
theorem brokenDuty_eq_none {ev : PinEvent} (h : ev.dutyMet = true) : ev.brokenDuty = none := by
  cases ev with
  | wrEdge vec duty draw => rw [show duty = .met from eq_of_beq h]; rfl
  | rdEdge vec duty draw => rw [show duty = .met from eq_of_beq h]; rfl
  | rstLevel vec duty => rw [show duty = .met from eq_of_beq h]; rfl

/-! ### The levels of a vector -/

@[simp] theorem levelOfBit_binary (b : Bool) : (levelOfBit b).binary = true := by cases b <;> rfl

/-- A vector of 0s and 1s reads as bits. -/
theorem exists_bitsOfLevels {vec : List Level} (h : vec.all Level.binary = true) :
    ∃ bits, bitsOfLevels vec = some bits := by
  induction vec with
  | nil => exact ⟨[], rfl⟩
  | cons l r ih =>
    rw [List.all_cons, Bool.and_eq_true] at h
    obtain ⟨hl, hr⟩ := h
    obtain ⟨bits, hbits⟩ := ih hr
    cases l with
    | zero => exact ⟨false :: bits, by rw [bitsOfLevels, hbits]; rfl⟩
    | one => exact ⟨true :: bits, by rw [bitsOfLevels, hbits]; rfl⟩
    | neither => cases hl

/-- A vector that reads as bits has no wire that is neither 0 nor 1. -/
theorem bitsOfLevels_eq_none {vec : List Level} (h : .neither ∈ vec) : bitsOfLevels vec = none := by
  cases hbits : bitsOfLevels vec with
  | none => rfl
  | some bits =>
    rw [bitsOfLevels_some hbits, List.mem_map] at h
    obtain ⟨b, -, hb⟩ := h
    cases b <;> cases hb

/-! ### The decoder -/

/-- Where the duties are met and the levels are bits, the bits alone select the operation. -/
theorem decode_eq_decodeVector {w : Nat} {ev : PinEvent} {bits : List Bool}
    (hduty : ev.dutyMet = true) (hbits : bitsOfLevels ev.vec = some bits) :
    decode w ev = decodeVector w ev.format bits := by
  simp only [decode, brokenDuty_eq_none hduty, hbits]

/-- The decoder answers only what the bits of the vector select. -/
theorem decodeVector_of_decode {w : Nat} {ev : PinEvent} {i : Instr} (h : decode w ev = .ok i) :
    ∃ bits, decodeVector w ev.format bits = .ok i := by
  unfold decode at h
  split at h
  · cases h
  · split at h
    · cases h
    · exact ⟨_, h⟩

/-- The vector an operation is encoded in selects that operation. -/
theorem decodeVector_encodeBits {w : Nat} {i : Instr} (hwf : i.wf w = true) :
    decodeVector w i.format (encodeBits w i) = .ok i := by
  cases i with
  | push d =>
    have hd : d < 2 ^ w := of_decide_eq_true hwf
    simp [decodeVector, Instr.format, encodeBits, Format.width, natOfBits_bitsOfNat,
      Nat.mod_eq_of_lt hd]
  | widle x =>
    have hx : x < 2 ^ w := of_decide_eq_true hwf
    simp [decodeVector, Instr.format, encodeBits, Format.width, natOfBits_bitsOfNat,
      Nat.mod_eq_of_lt hx]
  | pop => rfl
  | ridle => rfl
  | rstAssert => rfl
  | rstRelease => rfl

/-- A `WPORT` vector is `W` bits of record with `wr_en` after them. -/
theorem exists_record_of_length {w : Nat} {bits : List Bool} (h : bits.length = w + 1) :
    ∃ record en, bits = record ++ [en] ∧ record.length = w := by
  have hne : bits ≠ [] := List.ne_nil_of_length_eq_add_one h
  exact ⟨bits.dropLast, bits.getLast hne, (List.dropLast_append_getLast hne).symm, by simp [h]⟩

/-- Every vector of a port's width encodes a well-formed operation of that port. -/
theorem exists_encodeBits_eq {w : Nat} {fmt : Format} {bits : List Bool}
    (hlen : bits.length = fmt.width w) :
    ∃ i : Instr, i.wf w = true ∧ i.format = fmt ∧ encodeBits w i = bits := by
  cases fmt with
  | wport =>
    obtain ⟨record, en, rfl, rfl⟩ := exists_record_of_length hlen
    have hlt := natOfBits_lt record
    cases en
    · exact ⟨.widle (natOfBits record), decide_eq_true hlt, rfl,
        congrArg (· ++ [false]) (bitsOfNat_natOfBits record)⟩
    · exact ⟨.push (natOfBits record), decide_eq_true hlt, rfl,
        congrArg (· ++ [true]) (bitsOfNat_natOfBits record)⟩
  | rport =>
    obtain ⟨b, rfl⟩ := List.length_eq_one_iff.1 hlen
    cases b
    · exact ⟨.ridle, rfl, rfl, rfl⟩
    · exact ⟨.pop, rfl, rfl, rfl⟩
  | rst =>
    obtain ⟨b, rfl⟩ := List.length_eq_one_iff.1 hlen
    cases b
    · exact ⟨.rstRelease, rfl, rfl, rfl⟩
    · exact ⟨.rstAssert, rfl, rfl, rfl⟩

/-- What the decoder answers is well formed. -/
theorem decode_wf {w : Nat} {ev : PinEvent} {i : Instr} (h : decode w ev = .ok i) :
    i.wf w = true := by
  obtain ⟨bits, hbits⟩ := decodeVector_of_decode h
  by_cases hlen : bits.length = ev.format.width w
  · obtain ⟨j, hwf, hfmt, rfl⟩ := exists_encodeBits_eq hlen
    have hj := decodeVector_encodeBits hwf
    rw [hfmt, hbits] at hj
    cases hj
    exact hwf
  · simp [decodeVector, hlen] at hbits

/-! ### The encoder -/

theorem length_encodeBits (w : Nat) (i : Instr) : (encodeBits w i).length = i.format.width w := by
  cases i with
  | push d => exact Laws.EncodeWidth.push d w
  | widle x => exact Laws.EncodeWidth.widle x w
  | pop => exact Laws.EncodeWidth.pop w
  | ridle => exact Laws.EncodeWidth.ridle w
  | rstAssert => exact Laws.EncodeWidth.rstAssert w
  | rstRelease => exact Laws.EncodeWidth.rstRelease w

/-- The event of an operation is one the block can run, whatever its draw directive. -/
theorem encode_wf (w : Nat) (i : Instr) (ds : DrawSel) :
    ((encode w i).withDraw ds).wf w = true := by
  simp [PinEvent.wf, encode, length_encodeBits, List.all_map]

/-- Decoding undoes encoding, whatever the draw directive. -/
theorem decode_encode {w : Nat} {i : Instr} (hwf : i.wf w = true) (ds : DrawSel) :
    decode w ((encode w i).withDraw ds) = .ok i := by
  rw [decode_eq_decodeVector (bits := encodeBits w i) (by simp [encode]) (by simp [encode])]
  simpa [encode] using decodeVector_encodeBits hwf

/-! ### The statements -/

/-- Settles O2: an encoded event keeps its duties and has its port's width, and its bits select the
operation they were made from. -/
theorem decodeOfEncodeIsTheOperation : Obligations.DecodeOfEncodeIsTheOperation :=
  fun w i ds hwf => ⟨encode_wf w i ds, decode_encode hwf ds⟩

/-- Settles O3: the bits of a well-formed event encode some operation, and decoding gives it back. -/
theorem everyBinaryVectorHasAMeaning : Obligations.EveryBinaryVectorHasAMeaning := by
  refine ⟨fun w ev hev => ?_, fun w ev hduty hmem => ?_, fun w vec ds => ⟨rfl, rfl⟩⟩
  · simp only [PinEvent.wf, Bool.and_eq_true, beq_iff_eq] at hev
    obtain ⟨⟨hduty, hlen⟩, hbinary⟩ := hev
    obtain ⟨bits, hbits⟩ := exists_bitsOfLevels hbinary
    have hvec := bitsOfLevels_some hbits
    rw [hvec, List.length_map] at hlen
    obtain ⟨i, hwf, hfmt, rfl⟩ := exists_encodeBits_eq hlen
    have hev : (encode w i).withDraw ev.drawSel = ev := by
      rw [encode, hfmt]
      exact eventOfBits_withDraw hduty hvec
    exact ⟨i, hev ▸ decode_encode hwf _, hwf, hfmt, hev⟩
  · simp only [decode, brokenDuty_eq_none hduty, bitsOfLevels_eq_none hmem]

/-- Settles O1: seven vectors of V-ENC-1, each of its port's width, decoded bit by bit. -/
theorem decoderReadsWrittenWords : Obligations.DecoderReadsWrittenWords :=
  ⟨rfl, rfl, rfl, rfl, rfl, rfl, rfl⟩

namespace Machine

/-- No step changes the parameters. -/
theorem step_cfg {s t : State} (h : step s = .next t) : t.cfg = s.cfg := by
  obtain ⟨-, rfl⟩ | ⟨ev, rest, i, -, -, hexec⟩ := step_next_cases h
  · rfl
  · obtain ⟨g, rfl, -⟩ := exec_next_cases hexec
    rfl

/-- A step is refused only for an event that the decoder rejects. -/
theorem step_refused_cases {s : State} {r : Refusal} (h : step s = .refused r) :
    ∃ why, r = .badEvent why := by
  obtain ⟨p, f, pending, draw, tick⟩ := s
  cases pending with
  | nil => cases h
  | cons ev rest =>
    cases hdec : decode p.W ev with
    | error why =>
      simp only [step, fetch_cons, hdec] at h
      cases h
      exact ⟨why, rfl⟩
    | ok i =>
      obtain ⟨g, hg⟩ := exec_next_of_wf f ⟨rest, ev.drawSel, tick + 1⟩ (decode_wf hdec)
      rw [step_eq_exec (fetch_cons p f ev rest draw tick) hdec, hg] at h
      cases h

/-- Settles O7: `execPush` refuses the record, but an operation that a step runs is well formed. -/
theorem tooWideRecordIsRefusedAndNeverFetched :
    Obligations.TooWideRecordIsRefusedAndNeverFetched := by
  refine ⟨fun p f e d hd => exec_push_wide (Nat.not_lt.2 hd), fun s t => ⟨fun h => ?_, step_cfg⟩⟩
  obtain ⟨why, hwhy⟩ := step_refused_cases h
  cases hwhy

end Machine

end Sys2Proof
end

section
/-! PROOFS. Gray code bit by bit (30_encoding.md R76 to R79). -/

namespace Sys2Proof.Machine

open Sys2Proof

section Bits
variable {n : Nat}

/-! ### The bits of both codes -/

/-- A bit of a gray code is the exclusive-or of two neighbours; above the top bit there is a 0. -/
theorem gray_getLsbD (b : Index n) (i : Nat) :
    (gray b).getLsbD i = (b.getLsbD (i + 1) ^^ b.getLsbD i) := by
  rw [gray, BitVec.getLsbD_xor, BitVec.getLsbD_ushiftRight, Nat.add_comm, Bool.xor_comm]

/-- `gray` has a left inverse on a finite set, so it is a bijection. -/
theorem gray_bijective (n : Nat) : Function.Bijective (gray : Index n → Gray n) :=
  Finite.injective_iff_bijective.1 (Function.LeftInverse.injective bin_gray)

/-- Writing an index in gray code undoes reading it. -/
@[simp] theorem gray_bin (g : Gray n) : gray (bin g) = g := by
  obtain ⟨b, rfl⟩ := (gray_bijective n).surjective g
  rw [bin_gray]

/-- The recurrence from the top bit down; above the top bit both codes are 0. -/
theorem bin_getLsbD (g : Gray n) (i : Nat) :
    (bin g).getLsbD i = ((bin g).getLsbD (i + 1) ^^ g.getLsbD i) := by
  have h := gray_getLsbD (bin g) i
  rw [gray_bin] at h
  rw [h, ← Bool.xor_assoc, Bool.xor_self, Bool.false_xor]

/-- The recurrence unrolled over the `m` bits from bit `i` to the top. -/
theorem bin_getLsbD_eq_foldr (g : Gray n) {i m : Nat} (h : i + m = n) :
    (bin g).getLsbD i = ((List.range m).map fun k => g.getLsbD (i + k)).foldr Bool.xor false := by
  induction m generalizing i with
  | zero => exact BitVec.getLsbD_of_ge _ _ (by omega)
  | succ m ih =>
    rw [bin_getLsbD, ih (i := i + 1) (by omega), List.range_succ_eq_map, Bool.xor_comm]
    simp [Function.comp_def, Nat.add_assoc, Nat.add_comm 1]

/-! ### Successive gray values -/

/-- Adding 1 flips a bit exactly when every bit below it is 1. -/
theorem add_one_getLsbD (b : Index n) (j : Nat) :
    (b + 1#n).getLsbD j =
      (b.getLsbD j ^^ (decide (j < n) && decide (∀ k, k < j → b.getLsbD k = true))) := by
  have hneg : b + 1#n = -(~~~b) := by rw [BitVec.neg_eq_not_add, BitVec.not_not]
  rw [hneg, BitVec.getLsbD_neg, BitVec.getLsbD_not]
  by_cases hj : j < n
  · have hbelow : (∃ k, k < j ∧ (~~~b).getLsbD k = true) ↔ ¬ ∀ k, k < j → b.getLsbD k = true := by
      push Not
      refine exists_congr fun k => and_congr_right fun hk => ?_
      simp [hk.trans hj]
    rw [decide_eq_decide.2 hbelow, decide_not, decide_eq_true hj, Bool.true_and, Bool.true_and,
      Bool.true_and, Bool.not_xor_not]
  · rw [decide_eq_false hj, Bool.false_and, Bool.false_and, Bool.false_and,
      BitVec.getLsbD_of_ge b j (Nat.not_lt.1 hj)]

/-- Adding 1 flips the bits up to the lowest 0, or all of them where there is none. -/
theorem exists_add_one_flips (hn : 1 ≤ n) (b : Index n) :
    ∃ i, i < n ∧ ∀ j, (b + 1#n).getLsbD j = (b.getLsbD j ^^ decide (j ≤ i)) := by
  have hex : ∃ i, i + 1 = n ∨ b.getLsbD i = false := ⟨n - 1, .inl (Nat.sub_add_cancel hn)⟩
  have hlt : Nat.find hex < n := (Nat.find_le (.inl (Nat.sub_add_cancel hn))).trans_lt (by omega)
  refine ⟨Nat.find hex, hlt, fun j => ?_⟩
  rw [add_one_getLsbD, ← Bool.decide_and, decide_eq_decide.2]
  constructor
  · rintro ⟨hj, hones⟩
    by_contra hgt
    obtain htop | hzero := Nat.find_spec hex
    · omega
    · exact absurd (hones _ (by omega)) (Bool.not_eq_true _ ▸ hzero)
  · exact fun hj => ⟨hj.trans_lt hlt, fun k hk => Bool.eq_true_of_not_eq_false fun hzero =>
      Nat.find_min hex (hk.trans_le hj) (.inr hzero)⟩

/-- Successive gray values differ in the highest bit that the addition flips (30_encoding.md R79). -/
theorem gray_add_one_differ (hn : 1 ≤ n) (b : Index n) :
    DifferInOneBit (gray (b + 1#n)) (gray b) := by
  obtain ⟨i, hi, hflip⟩ := exists_add_one_flips hn b
  refine ⟨i, hi, fun j _ => ?_⟩
  have hbit : (gray (b + 1#n)).getLsbD j = ((gray b).getLsbD j ^^ decide (j = i)) := by
    rw [gray_getLsbD, gray_getLsbD, hflip, hflip]
    rcases Nat.lt_trichotomy j i with h | h | h
    · simp [h.le, h.ne, Nat.succ_le_of_lt h]
    · simp [h]
    · simp [h.not_ge, h.ne', Nat.not_le_of_lt (Nat.lt_succ_of_lt h)]
  rw [hbit]
  cases (gray b).getLsbD j <;> simp

/-- The gray value of the last index before the wrap is 1 followed by zeros. -/
theorem gray_allOnes_getLsbD (hn : 1 ≤ n) (i : Nat) :
    (gray (BitVec.allOnes n)).getLsbD i = decide (i = n - 1) := by
  rw [gray_getLsbD, BitVec.getLsbD_allOnes, BitVec.getLsbD_allOnes]
  rcases Nat.lt_trichotomy i (n - 1) with h | h | h
  · simp [h.ne, show i < n by omega, show i + 1 < n by omega]
  · simp [h, show n - 1 + 1 = n by omega]; omega
  · simp [h.ne', show ¬ i < n by omega, show ¬ i + 1 < n by omega]

end Bits

/-! ### The gray registers -/

section Registers
variable {p : Params} {f : Fifo p}

/-- A `wr_clk` edge leaves `wgray` or takes it to the next gray value. -/
theorem writeEdge_wgray_cases (e : Env) (en : Bool) (d : Record p.W) (h : DomainInv f) :
    (writeEdge e f en d).wr.wgray = f.wr.wgray ∨
      DifferInOneBit (writeEdge e f en d).wr.wgray f.wr.wgray := by
  have hg := (domainInv_writeEdge e en d h).wgray_eq
  rw [hg, h.wgray_eq]
  obtain hbin | ⟨hbin, -⟩ := writeEdge_wbin_cases e f en d <;> rw [hbin]
  · exact .inl rfl
  · exact .inr (gray_add_one_differ p.AW_pos _)

/-- An `rd_clk` edge leaves `rgray` or takes it to the next gray value. -/
theorem readEdge_rgray_cases (e : Env) (en : Bool) (h : DomainInv f) :
    (readEdge e f en).rd.rgray = f.rd.rgray ∨
      DifferInOneBit (readEdge e f en).rd.rgray f.rd.rgray := by
  have hg := (domainInv_readEdge e en h).rgray_eq
  rw [hg, h.rgray_eq]
  obtain hbin | ⟨hbin, -⟩ := readEdge_rbin_cases e f en <;> rw [hbin]
  · exact .inl rfl
  · exact .inr (gray_add_one_differ p.AW_pos _)

end Registers

/-! ### The statements -/

/-- Settles O28: the top bit has no neighbour above it. -/
theorem grayBitsAreNeighbourXors : Obligations.GrayBitsAreNeighbourXors := by
  intro n b hn
  refine ⟨rfl, ?_, fun i _ => gray_getLsbD b i⟩
  rw [gray_getLsbD, BitVec.getLsbD_of_ge b (n - 1 + 1) (by omega), Bool.false_xor]

/-- Settles O29: the recurrence is what `gray (bin g) = g` says of each bit, and unrolled it is the
exclusive-or of the bits from `i` up. -/
theorem binBitsArePrefixXors : Obligations.BinBitsArePrefixXors := by
  intro n g hn
  refine ⟨?_, fun i _ => bin_getLsbD g i, fun i hi => bin_getLsbD_eq_foldr g (by omega)⟩
  rw [bin_getLsbD, BitVec.getLsbD_of_ge _ (n - 1 + 1) (by omega), Bool.false_xor]

/-- Settles O30: `bin` is a left inverse of `gray`, and on a finite set that makes it the inverse. -/
theorem grayAndBinAreInverse : Obligations.GrayAndBinAreInverse :=
  fun n => ⟨bin_gray, gray_bin, gray_bijective n, gray_zero n⟩

/-- Settles O31: adding 1 flips a run of low bits, of which gray code shows the upper end only; an edge
leaves an index or adds 1 to it, and its gray register follows. -/
theorem grayChangesOneBitPerStep : Obligations.GrayChangesOneBitPerStep := by
  refine ⟨fun n b hn => gray_add_one_differ hn b, fun n hn => ⟨?_, gray_zero n, gray_allOnes_getLsbD hn⟩,
    fun p f g e i hinv hne hexec => ?_⟩
  · rw [← BitVec.not_zero, ← BitVec.neg_eq_not_add, BitVec.neg_zero]
  · obtain ⟨g', hg, ⟨d, -, -, rfl⟩ | ⟨x, -, rfl⟩ | ⟨-, rfl⟩ | ⟨-, rfl⟩ | ⟨rfl, -⟩ | ⟨-, rfl⟩⟩ :=
      exec_next_cases hexec <;> cases hg
    · exact ⟨writeEdge_wgray_cases e _ _ hinv, .inl (by rw [writeEdge_rd])⟩
    · exact ⟨writeEdge_wgray_cases e _ _ hinv, .inl (by rw [writeEdge_rd])⟩
    · exact ⟨.inl (by rw [readEdge_wr]), readEdge_rgray_cases e _ hinv⟩
    · exact ⟨.inl (by rw [readEdge_wr]), readEdge_rgray_cases e _ hinv⟩
    · exact absurd rfl hne
    · cases f.rst <;> exact ⟨.inl rfl, .inl rfl⟩

end Sys2Proof.Machine
end

section
/-! PROOFS. Idle edges until everything has arrived: RESET and SETTLE (30_encoding.md R84,
42_cdc_sync.md R150, 70_reset_and_hazards.md R183). -/

namespace Sys2Proof.Machine

open Sys2Proof

/-! ### Runs of stimulus lines -/

section LineRuns
variable {p : Params}

/-- A line that waits first is the next operation. -/
theorem step_line (f : Fifo p) (l : StimLine) (rest : List PinEvent) (ds : DrawSel) (tick : Nat)
    (hwf : l.op.wf p.W = true) :
    step ⟨p, f, ⟨l.event p.W :: rest, ds, tick⟩⟩ =
      exec l.op ⟨p, f, ⟨rest, (l.event p.W).drawSel, tick + 1⟩⟩ :=
  step_eq_exec (fetch_cons p f _ rest ds tick) (decode_encode hwf l.draw)

/-- Two runs that have a next state make one run. -/
theorem run_trans {j k : Nat} {s t u : State} (hj : run j s = .next t) (hk : run k t = .next u) :
    run (j + k) s = .next u := (run_add hj).trans hk

/-- The induction over the lines of a program: what every line carries from one count to the next holds
at the end, when all lines are taken. -/
theorem run_lineEvents {P : Nat → Fifo p → Prop} {ls : List StimLine}
    (hwf : ∀ l ∈ ls, l.op.wf p.W = true)
    (hstep : ∀ l ∈ ls, ∀ k f g e, P k f → exec l.op ⟨p, f, e⟩ = .next ⟨p, g, e⟩ → P (k + 1) g)
    {k : Nat} {f : Fifo p} (h : P k f) (rest : List PinEvent) (ds : DrawSel) (tick : Nat) :
    ∃ g ds' tick', run ls.length ⟨p, f, ⟨lineEvents p ls ++ rest, ds, tick⟩⟩ =
      .next ⟨p, g, ⟨rest, ds', tick'⟩⟩ ∧ P (k + ls.length) g := by
  induction ls generalizing k f ds tick with
  | nil => exact ⟨f, ds, tick, rfl, h⟩
  | cons l ls ih =>
    have hl := step_line f l (lineEvents p ls ++ rest) ds tick (hwf l List.mem_cons_self)
    obtain ⟨f', hf'⟩ := exec_next_of_wf f
      ⟨lineEvents p ls ++ rest, (l.event p.W).drawSel, tick + 1⟩ (hwf l List.mem_cons_self)
    obtain ⟨g, ds', tick', hrun, hg⟩ := ih (fun l' hl' => hwf l' (List.mem_cons_of_mem l hl'))
      (fun l' hl' => hstep l' (List.mem_cons_of_mem l hl')) (hstep l List.mem_cons_self k f f' _ h hf')
      (l.event p.W).drawSel (tick + 1)
    refine ⟨g, ds', tick', (run_succ_next (hl.trans hf')).trans hrun, ?_⟩
    rwa [List.length_cons, Nat.add_comm ls.length 1, ← Nat.add_assoc]

/-- Idle `wr_clk` edges, one for each directive. -/
theorem run_idleW {P : Nat → Fifo p → Prop}
    (hstep : ∀ k f e, P k f → P (k + 1) (writeEdge e f false (BitVec.ofNat p.W 0)))
    {f : Fifo p} (h : P 0 f) {draws : List DrawSel} {n : Nat} (hn : draws.length = n)
    (rest : List PinEvent) (ds : DrawSel) (tick : Nat) :
    ∃ g ds' tick', run n ⟨p, f, ⟨lineEvents p (idleW draws) ++ rest, ds, tick⟩⟩ =
      .next ⟨p, g, ⟨rest, ds', tick'⟩⟩ ∧ P n g := by
  have hlen : (idleW draws).length = n := by rw [idleW, List.length_map, hn]
  have hop : ∀ l ∈ idleW draws, l.op = .widle 0 := by simp [idleW]
  have hrun := run_lineEvents (P := P) (ls := idleW draws)
    (fun l hl => hop l hl ▸ decide_eq_true (Nat.two_pow_pos p.W))
    (fun l hl k f g e hP hexec => by
      rw [hop l hl, exec_widle] at hexec
      cases hexec
      exact hstep k f e hP) h rest ds tick
  rwa [hlen, Nat.zero_add] at hrun

/-- Idle `rd_clk` edges, one for each directive. -/
theorem run_idleR {P : Nat → Fifo p → Prop}
    (hstep : ∀ k f e, P k f → P (k + 1) (readEdge e f false))
    {f : Fifo p} (h : P 0 f) {draws : List DrawSel} {n : Nat} (hn : draws.length = n)
    (rest : List PinEvent) (ds : DrawSel) (tick : Nat) :
    ∃ g ds' tick', run n ⟨p, f, ⟨lineEvents p (idleR draws) ++ rest, ds, tick⟩⟩ =
      .next ⟨p, g, ⟨rest, ds', tick'⟩⟩ ∧ P n g := by
  have hlen : (idleR draws).length = n := by rw [idleR, List.length_map, hn]
  have hop : ∀ l ∈ idleR draws, l.op = .ridle := by simp [idleR]
  have hrun := run_lineEvents (P := P) (ls := idleR draws)
    (fun l hl => hop l hl ▸ rfl)
    (fun l hl k f g e hP hexec => by
      rw [hop l hl, exec_ridle] at hexec
      cases hexec
      exact hstep k f e hP) h rest ds tick
  rwa [hlen, Nat.zero_add] at hrun

end LineRuns

/-! ### A value on its way through a link -/

section Delivery
variable {α : Type} [Inhabited α] {n : Nat} {v : α} {b : LinkBook α} {c : Chain α n}

/-- How far `k` samples of a source that holds `v` have brought it: the first one may still draw the
value before the latest change, so `v` is in the stages below `k` (42_cdc_sync.md R150). -/
structure Delivered (k : Nat) (v : α) (b : LinkBook α) (c : Chain α n) : Prop where
  clean : 1 ≤ k → b.dirty = false
  arrived : ∀ j, 1 ≤ j → j < k → j ≤ n → c.stage j = v

theorem delivered_zero (v : α) (b : LinkBook α) (c : Chain α n) : Delivered 0 v b c :=
  ⟨fun h => absurd h (by decide), fun _ _ hj => absurd hj (Nat.not_lt_zero _)⟩

/-- A sample brings the value one stage further. -/
theorem Delivered.shift {k : Nat} (h : Delivered k v b c) (e : Env) (l : Link) :
    Delivered (k + 1) v b.sampled (c.shift (sample e l b v)) := by
  refine ⟨fun _ => rfl, fun j hj hjk hjn => ?_⟩
  obtain rfl | ⟨i, hi, rfl⟩ : j = 1 ∨ ∃ i, 1 ≤ i ∧ j = i + 1 := by
    obtain rfl | hne := eq_or_ne j 1
    · exact .inl rfl
    · exact .inr ⟨j - 1, by omega, by omega⟩
  · rw [Chain.stage_one_shift _ _ hjn, sample_clean _ _ _ (h.clean (by omega))]
  · rw [Chain.stage_succ_shift _ _ hi hjn]
    exact h.arrived i hi (by omega) (by omega)

/-- A chain with one value in every stage that can be named is full of it. -/
theorem Chain.eq_fill (h : ∀ j, 1 ≤ j → j ≤ n → c.stage j = v) : c = Chain.fill v := by
  have hlen := c.len
  refine Chain.ext_stages (List.eq_replicate_iff.2 ⟨c.len, fun x hx => ?_⟩)
  obtain ⟨j, hj, rfl⟩ := List.mem_iff_getElem.1 hx
  have hstage := h (j + 1) (by omega) (by omega)
  rwa [Chain.stage, Nat.add_sub_cancel, List.getD_eq_getElem _ _ hj] at hstage

/-- After `NS + 1` samples every stage holds the value. -/
theorem Delivered.eq_fill (h : Delivered (n + 1) v b c) : c = Chain.fill v :=
  Chain.eq_fill fun j hj hjn => h.arrived j hj (Nat.lt_succ_of_le hjn) hjn

end Delivery

/-! ### SETTLE out of reset -/

section Settle
variable {p : Params} {f g mid : Fifo p}

/-- What `k` idle `wr_clk` edges out of reset make of `f`: nothing moves but the two chains into the
write domain and their links. -/
def WriteSettling (f : Fifo p) (k : Nat) (g : Fifo p) : Prop :=
  ∃ wsyncR wsyncU rptr udf,
    g = { f with
      wr := { f.wr with wsyncR := wsyncR, wsyncU := wsyncU }
      links := { f.links with rptr := rptr, udf := udf } } ∧
    Delivered k f.rd.rgray rptr wsyncR ∧ Delivered k f.rd.udf udf wsyncU

/-- What `k` idle `rd_clk` edges out of reset make of `f`: nothing moves but the two chains into the
read domain and their links. -/
def ReadSettling (f : Fifo p) (k : Nat) (g : Fifo p) : Prop :=
  ∃ rsyncW rsyncO wptr ovf,
    g = { f with
      rd := { f.rd with rsyncW := rsyncW, rsyncO := rsyncO }
      links := { f.links with wptr := wptr, ovf := ovf } } ∧
    Delivered k f.wr.wgray wptr rsyncW ∧ Delivered k f.wr.ovf ovf rsyncO

/-- What SETTLE makes of a state out of reset: nothing moves but the four data chains, which hold what
their sources hold, and the bookkeeping of their links, which are clean. -/
def SettledFrom (f g : Fifo p) : Prop :=
  ∃ wptr ovf rptr udf,
    g = { f with
      wr := { f.wr with wsyncR := Chain.fill f.rd.rgray, wsyncU := Chain.fill f.rd.udf }
      rd := { f.rd with rsyncW := Chain.fill f.wr.wgray, rsyncO := Chain.fill f.wr.ovf }
      links := { f.links with wptr := wptr, ovf := ovf, rptr := rptr, udf := udf } } ∧
    wptr.dirty = false ∧ ovf.dirty = false ∧ rptr.dirty = false ∧ udf.dirty = false

theorem writeEdge_idle (e : Env) (d : Record p.W) (hrst : f.rst = false)
    (hres : f.wInReset = false) : writeEdge e f false d = syncStepW e f := by
  simp only [writeEdge, writeCase_idle hrst hres]

theorem readEdge_idle (e : Env) (hrst : f.rst = false) (hres : f.rInReset = false) :
    readEdge e f false = syncStepR e f := by
  simp only [readEdge, readCase_idle hrst hres]

theorem writeSettling_zero (f : Fifo p) : WriteSettling f 0 f :=
  ⟨_, _, _, _, rfl, delivered_zero _ _ _, delivered_zero _ _ _⟩

theorem readSettling_zero (f : Fifo p) : ReadSettling f 0 f :=
  ⟨_, _, _, _, rfl, delivered_zero _ _ _, delivered_zero _ _ _⟩

/-- Idle edges out of reset move no reset register. -/
theorem writeSettling_reset {k : Nat} (hg : WriteSettling f k g) :
    g.rst = f.rst ∧ g.wInReset = f.wInReset ∧ g.rInReset = f.rInReset := by
  obtain ⟨_, _, _, _, rfl, -⟩ := hg
  exact ⟨rfl, rfl, rfl⟩

theorem readSettling_reset {k : Nat} (hg : ReadSettling f k g) :
    g.rst = f.rst ∧ g.rInReset = f.rInReset := by
  obtain ⟨_, _, _, _, rfl, -⟩ := hg
  exact ⟨rfl, rfl⟩

theorem writeSettling_writeEdge (hrst : f.rst = false) (hres : f.wInReset = false) {k : Nat}
    (hg : WriteSettling f k g) (e : Env) (d : Record p.W) :
    WriteSettling f (k + 1) (writeEdge e g false d) := by
  obtain ⟨hgrst, hgres, -⟩ := writeSettling_reset hg
  rw [writeEdge_idle e d (hgrst.trans hrst) (hgres.trans hres)]
  obtain ⟨wsyncR, wsyncU, rptr, udf, rfl, hrgray, hudf⟩ := hg
  exact ⟨_, _, _, _, rfl, hrgray.shift e .rptr, hudf.shift e .udf⟩

theorem readSettling_readEdge (hrst : f.rst = false) (hres : f.rInReset = false) {k : Nat}
    (hg : ReadSettling f k g) (e : Env) : ReadSettling f (k + 1) (readEdge e g false) := by
  obtain ⟨hgrst, hgres⟩ := readSettling_reset hg
  rw [readEdge_idle e (hgrst.trans hrst) (hgres.trans hres)]
  obtain ⟨rsyncW, rsyncO, wptr, ovf, rfl, hwgray, hovf⟩ := hg
  exact ⟨_, _, _, _, rfl, hwgray.shift e .wptr, hovf.shift e .ovf⟩

/-- `NS + 1` idle edges of each domain settle both: an edge of the one leaves the sources of the
other. -/
theorem settledFrom_of_settling (hw : WriteSettling f (p.NS + 1) mid)
    (hr : ReadSettling mid (p.NS + 1) g) : SettledFrom f g := by
  obtain ⟨wsyncR, wsyncU, rptr, udf, rfl, hrgray, hudf⟩ := hw
  obtain ⟨rsyncW, rsyncO, wptr, ovf, rfl, hwgray, hovf⟩ := hr
  obtain rfl := hrgray.eq_fill
  obtain rfl := hudf.eq_fill
  obtain rfl := hwgray.eq_fill
  obtain rfl := hovf.eq_fill
  have hpos : 1 ≤ p.NS + 1 := Nat.le_add_left 1 p.NS
  exact ⟨wptr, ovf, rptr, udf, rfl, hwgray.clean hpos, hovf.clean hpos, hrgray.clean hpos,
    hudf.clean hpos⟩

/-- What SETTLE reaches is settled. -/
theorem settled_of_settledFrom (hrst : f.rst = false) (hwres : f.wInReset = false)
    (hrres : f.rInReset = false) (hg : SettledFrom f g) : Settled g := by
  obtain ⟨wptr, ovf, rptr, udf, rfl, -⟩ := hg
  exact ⟨hrst, hwres, hrres, rfl, rfl, rfl, rfl⟩

/-- SETTLE, whatever the draws. -/
theorem run_settle (hrst : f.rst = false) (hwres : f.wInReset = false) (hrres : f.rInReset = false)
    {w r : List DrawSel} (hw : w.length = p.NS + 1) (hr : r.length = p.NS + 1)
    (rest : List PinEvent) (ds : DrawSel) (tick : Nat) :
    ∃ g ds' tick', run (p.NS + 1 + (p.NS + 1))
        ⟨p, f, ⟨lineEvents p (idleW w ++ idleR r) ++ rest, ds, tick⟩⟩ =
      .next ⟨p, g, ⟨rest, ds', tick'⟩⟩ ∧ SettledFrom f g := by
  obtain ⟨mid, ds₁, tick₁, hrunW, hmid⟩ := run_idleW (P := WriteSettling f)
    (fun k g e hg => writeSettling_writeEdge hrst hwres hg e _) (writeSettling_zero f) hw
    (lineEvents p (idleR r) ++ rest) ds tick
  obtain ⟨hmrst, -, hmres⟩ := writeSettling_reset hmid
  obtain ⟨g, ds₂, tick₂, hrunR, hg⟩ := run_idleR (P := ReadSettling mid)
    (fun k g e hg => readSettling_readEdge (hmrst.trans hrst) (hmres.trans hrres) hg e)
    (readSettling_zero mid) hr rest ds₁ tick₁
  refine ⟨g, ds₂, tick₂, ?_, settledFrom_of_settling hmid hg⟩
  rw [lineEvents_append, List.append_assoc]
  exact run_trans hrunW hrunR

end Settle

/-! ### RESET -/

section Reset
variable {p : Params} {f g : Fifo p}

/-- A reset under way or just completed: `rst` is low again, every index and flag holds its reset value,
and `ovf` shows that the write domain is in reset. -/
structure Emptied (f : Fifo p) : Prop where
  rst_low : f.rst = false
  wbin_zero : f.wr.wbin = 0#p.AW
  wgray_zero : f.wr.wgray = 0#p.AW
  ovf_eq : f.wr.ovf = f.wInReset
  rbin_zero : f.rd.rbin = 0#p.AW
  rgray_zero : f.rd.rgray = 0#p.AW
  udf_clear : f.rd.udf = false
  reset : ResetInv f

/-- A rise and a fall of `rst` empty the block from every state. -/
theorem emptied_dropReset_forceReset (f : Fifo p) : Emptied (dropReset (forceReset f)) where
  rst_low := rfl
  wbin_zero := rfl
  wgray_zero := rfl
  ovf_eq := (Chain.last_fill true (Nat.le_of_succ_le p.NS_two)).symm
  rbin_zero := rfl
  rgray_zero := rfl
  udf_clear := rfl
  reset := resetInv_dropReset rfl (resetInv_forceReset f)

/-- An idle `wr_clk` edge with `rst = 0` is a release step or a synchronizer step. -/
theorem writeEdge_idle_cases (e : Env) (d : Record p.W) (hrst : f.rst = false) :
    (f.wInReset = true ∧ writeEdge e f false d = releaseStepW e f) ∨
    (f.wInReset = false ∧ writeEdge e f false d = syncStepW e f) := by
  cases hres : f.wInReset
  · exact .inr ⟨rfl, writeEdge_idle e d hrst hres⟩
  · exact .inl ⟨rfl, by simp only [writeEdge, writeCase_releasing false hrst hres]⟩

/-- An idle `rd_clk` edge with `rst = 0` is a release step or a synchronizer step. -/
theorem readEdge_idle_cases (e : Env) (hrst : f.rst = false) :
    (f.rInReset = true ∧ readEdge e f false = releaseStepR e f) ∨
    (f.rInReset = false ∧ readEdge e f false = syncStepR e f) := by
  cases hres : f.rInReset
  · exact .inr ⟨rfl, readEdge_idle e hrst hres⟩
  · exact .inl ⟨rfl, by simp only [readEdge, readCase_releasing false hrst hres]⟩

theorem emptied_writeEdge (hf : Emptied f) (e : Env) (d : Record p.W) :
    Emptied (writeEdge e f false d) := by
  have hreset := resetInv_writeEdge e false d hf.reset
  obtain ⟨-, hg⟩ | ⟨-, hg⟩ := writeEdge_idle_cases e d hf.rst_low <;> rw [hg] at hreset ⊢
  · exact { hf with ovf_eq := (releaseStepW_wInReset e f).symm, reset := hreset }
  · exact { hf with reset := hreset }

theorem emptied_readEdge (hf : Emptied f) (e : Env) : Emptied (readEdge e f false) := by
  have hreset := resetInv_readEdge e false hf.reset
  obtain ⟨-, hg⟩ | ⟨-, hg⟩ := readEdge_idle_cases e hf.rst_low <;> rw [hg] at hreset ⊢
  · exact { hf with reset := hreset }
  · exact { hf with reset := hreset }

/-- After `k` idle `wr_clk` edges the write domain is out of reset, or the fall of `rst` has come as far
as `k` samples bring it. -/
def WriteReleasing (m : Memory p.W) (k : Nat) (g : Fifo p) : Prop :=
  Emptied g ∧ g.storage = m ∧ (g.wInReset = true → Delivered k false g.links.wRst g.wr.wrst)

/-- After `k` idle `rd_clk` edges the read domain is out of reset, or the fall of `rst` has come as far
as `k` samples bring it; the write domain is out already. -/
def ReadReleasing (m : Memory p.W) (k : Nat) (g : Fifo p) : Prop :=
  Emptied g ∧ g.storage = m ∧ g.wInReset = false ∧
    (g.rInReset = true → Delivered k false g.links.rRst g.rd.rrst)

theorem writeReleasing_writeEdge {m : Memory p.W} {k : Nat} (hg : WriteReleasing m k g) (e : Env)
    (d : Record p.W) : WriteReleasing m (k + 1) (writeEdge e g false d) := by
  obtain ⟨hempty, rfl, hfall⟩ := hg
  have hnext := emptied_writeEdge hempty e d
  obtain ⟨hres, hedge⟩ | ⟨hres, hedge⟩ := writeEdge_idle_cases e d hempty.rst_low <;>
    rw [hedge] at hnext ⊢
  · refine ⟨hnext, rfl, fun _ => ?_⟩
    rw [releaseStepW_links_wRst, releaseStepW_wr_wrst, hempty.rst_low]
    exact (hfall hres).shift e .wRst
  · exact ⟨hnext, rfl, fun hin : g.wInReset = true => absurd hin (by simp [hres])⟩

theorem readReleasing_readEdge {m : Memory p.W} {k : Nat} (hg : ReadReleasing m k g) (e : Env) :
    ReadReleasing m (k + 1) (readEdge e g false) := by
  obtain ⟨hempty, rfl, hwres, hfall⟩ := hg
  have hnext := emptied_readEdge hempty e
  obtain ⟨hres, hedge⟩ | ⟨hres, hedge⟩ := readEdge_idle_cases e hempty.rst_low <;>
    rw [hedge] at hnext ⊢
  · refine ⟨hnext, rfl, hwres, fun _ => ?_⟩
    rw [releaseStepR_links_rRst, releaseStepR_rd_rrst, hempty.rst_low]
    exact (hfall hres).shift e .rRst
  · exact ⟨hnext, rfl, hwres, fun hin : g.rInReset = true => absurd hin (by simp [hres])⟩

/-- `NS + 1` samples of the fall of `rst` end a reset. -/
theorem last_eq_false_of_delivered {b : LinkBook Bool} {c : Chain Bool p.NS}
    (h : c.last = true → Delivered (p.NS + 1) false b c) : c.last = false := by
  cases hlast : c.last
  · rfl
  · rw [(h hlast).eq_fill, Chain.last_fill false (Nat.le_of_succ_le p.NS_two)] at hlast
    cases hlast

/-- Once stage `NS` of a reset synchronizer is 0, every stage is, and the fall has been sampled
(42_cdc_sync.md R147). -/
theorem resetChainInv_released {rst : Bool} {b : LinkBook Bool} {c : Chain Bool p.NS}
    (h : ResetChainInv (p := p) rst b c) (hlast : c.last = false) :
    c = Chain.fill false ∧ b.dirty = false := by
  have hpos : 1 ≤ p.NS := Nat.le_of_succ_le p.NS_two
  refine ⟨Chain.ext_stages (List.eq_replicate_iff.2 ⟨c.len, fun x hx => ?_⟩), ?_⟩
  · have hrel := h.ones_last.rel_getLast_of_rel_getLast_getLast hx id
    rw [← Chain.last_eq_getLast c hpos, hlast] at hrel
    exact Bool.eq_false_iff.2 fun hx => Bool.false_ne_true (hrel hx)
  · refine Bool.eq_false_iff.2 fun hdirty => ?_
    rw [h.unsampled hdirty, Chain.last_fill true hpos] at hlast
    cases hlast

/-- After a fall of `rst`, `NS + 1` idle edges of each domain bring both out of reset. -/
theorem run_release (hf : Emptied f) {w r : List DrawSel} (hw : w.length = p.NS + 1)
    (hr : r.length = p.NS + 1) (rest : List PinEvent) (ds : DrawSel) (tick : Nat) :
    ∃ g ds' tick', run (p.NS + 1 + (p.NS + 1))
        ⟨p, f, ⟨lineEvents p (idleW w ++ idleR r) ++ rest, ds, tick⟩⟩ =
      .next ⟨p, g, ⟨rest, ds', tick'⟩⟩ ∧
      Emptied g ∧ g.storage = f.storage ∧ g.wInReset = false ∧ g.rInReset = false := by
  obtain ⟨mid, ds₁, tick₁, hrunW, hempty, hstore, hfall⟩ := run_idleW (P := WriteReleasing f.storage)
    (fun k g e hg => writeReleasing_writeEdge hg e _) ⟨hf, rfl, fun _ => delivered_zero _ _ _⟩ hw
    (lineEvents p (idleR r) ++ rest) ds tick
  have hwres : mid.wInReset = false := last_eq_false_of_delivered hfall
  obtain ⟨g, ds₂, tick₂, hrunR, hempty', hstore', hwres', hfall'⟩ :=
    run_idleR (P := ReadReleasing f.storage) (fun k g e hg => readReleasing_readEdge hg e)
      ⟨hempty, hstore, hwres, fun _ => delivered_zero _ _ _⟩ hr rest ds₁ tick₁
  refine ⟨g, ds₂, tick₂, ?_, hempty', hstore', hwres', last_eq_false_of_delivered hfall'⟩
  rw [lineEvents_append, List.append_assoc]
  exact run_trans hrunW hrunR

/-- SETTLE brings an emptied block out of reset to `S0`. -/
theorem isS0_of_settledFrom (hf : Emptied f) (hwres : f.wInReset = false)
    (hrres : f.rInReset = false) (hg : SettledFrom f g) : IsS0 g := by
  have hsettled := settled_of_settledFrom hf.rst_low hwres hrres hg
  obtain ⟨hw, hr⟩ := hf.reset
  obtain ⟨hwrst, hwclean⟩ := resetChainInv_released hw hwres
  obtain ⟨hrrst, hrclean⟩ := resetChainInv_released hr hrres
  obtain ⟨wptr, ovf, rptr, udf, rfl, hwptr, hovf, hrptr, hudf⟩ := hg
  exact {
    settled := hsettled
    wbin_zero := hf.wbin_zero
    wgray_zero := hf.wgray_zero
    ovf_clear := hf.ovf_eq.trans hwres
    rbin_zero := hf.rbin_zero
    rgray_zero := hf.rgray_zero
    udf_clear := hf.udf_clear
    wrst_clear := hwrst
    rrst_clear := hrrst
    no_open_draw := ⟨hwptr, hovf, hrptr, hudf, hwclean, hrclean⟩ }

/-- The two events of a reset pulse from a state with `rst = 0`. -/
theorem run_resetPulse (hrst : f.rst = false) (rest : List PinEvent) (ds : DrawSel) (tick : Nat) :
    ∃ ds', run 2 ⟨p, f, ⟨lineEvents p [plainLine .rstAssert, plainLine .rstRelease] ++ rest, ds, tick⟩⟩
      = .next ⟨p, dropReset (forceReset f), ⟨rest, ds', tick + 2⟩⟩ := by
  have hrise := step_line f (plainLine .rstAssert)
    (lineEvents p [plainLine .rstRelease] ++ rest) ds tick rfl
  rw [plainLine, exec_rstAssert, hrst] at hrise
  have hfall := step_line (forceReset f) (plainLine .rstRelease) rest
    ((plainLine .rstAssert).event p.W).drawSel (tick + 1) rfl
  rw [plainLine, exec_rstRelease] at hfall
  exact ⟨_, (run_succ_next hrise).trans (run_succ_next hfall)⟩

end Reset

/-! ### The statements -/

/-- Settles O15: each domain's idle edges deliver the other's registers, which they do not move. -/
theorem settleReachesASettledState : Obligations.SettleReachesASettledState := by
  intro p f w r rest ds tick hrst hwres hrres hw hr
  obtain ⟨g, ds', tick', hrun, hg⟩ := run_settle hrst hwres hrres hw hr rest ds tick
  have hsettled := settled_of_settledFrom hrst hwres hrres hg
  rw [← Nat.two_mul] at hrun
  refine ⟨g, _, hrun, hsettled, rfl, ?_⟩
  obtain ⟨wptr, ovf, rptr, udf, rfl, -⟩ := hg
  exact ⟨rfl, rfl, rfl, rfl, rfl, rfl, rfl⟩

/-- Settles O14: the pulse empties the block, the first idle edges bring both domains out of reset, and
the second ones settle it. -/
theorem resetThenSettleReachesS0 : Obligations.ResetThenSettleReachesS0 := by
  intro p f w₁ r₁ w₂ r₂ rest ds tick hrst hw₁ hr₁ hw₂ hr₂
  obtain ⟨ds₀, hpulse⟩ := run_resetPulse hrst
    (lineEvents p (idleW w₁ ++ idleR r₁) ++ (lineEvents p (idleW w₂ ++ idleR r₂) ++ rest)) ds tick
  obtain ⟨mid, ds₁, tick₁, hrelease, hempty, hstore, hwres, hrres⟩ :=
    run_release (emptied_dropReset_forceReset f) hw₁ hr₁
      (lineEvents p (idleW w₂ ++ idleR r₂) ++ rest) ds₀ (tick + 2)
  obtain ⟨g, ds₂, tick₂, hsettle, hg⟩ :=
    run_settle hempty.rst_low hwres hrres hw₂ hr₂ rest ds₁ tick₁
  refine ⟨g, ⟨rest, ds₂, tick₂⟩, ?_, isS0_of_settledFrom hempty hwres hrres hg, ?_, rfl⟩
  · have hrun := run_trans (run_trans hpulse hrelease) hsettle
    have hcount : 2 + 4 * (p.NS + 1) = 2 + (p.NS + 1 + (p.NS + 1)) + (p.NS + 1 + (p.NS + 1)) := by
      omega
    rw [hcount]
    simpa using hrun
  · obtain ⟨wptr, ovf, rptr, udf, rfl, -⟩ := hg
    exact hstore

end Sys2Proof.Machine
end

section
/-! PROOFS. The write port (40_write_port.md R101 to R110): what an edge does in each case, and pushes on
consecutive edges up to the overrun. -/

namespace Sys2Proof.Machine

open Sys2Proof

section WritePort
variable {p : Params} {f g : Fifo p}

/-! ### The cases of an edge -/

theorem writeEdge_held (e : Env) (en : Bool) (d : Record p.W) (hrst : f.rst = true) :
    writeEdge e f en d = f := by
  simp only [writeEdge, writeCase_held en hrst]

theorem writeEdge_releasing (e : Env) (en : Bool) (d : Record p.W) (hrst : f.rst = false)
    (hres : f.wInReset = true) : writeEdge e f en d = releaseStepW e f := by
  simp only [writeEdge, writeCase_releasing en hrst hres]

theorem writeEdge_rejectedLatched (e : Env) (d : Record p.W) (hrst : f.rst = false)
    (hres : f.wInReset = false) (hovf : f.wr.ovf = true) : writeEdge e f true d = syncStepW e f := by
  simp only [writeEdge, writeCase_rejectedLatched hrst hres hovf]

theorem writeEdge_rejectedFull (e : Env) (d : Record p.W) (hrst : f.rst = false)
    (hres : f.wInReset = false) (hovf : f.wr.ovf = false) (hfull : f.writableW = 0#p.AW) :
    writeEdge e f true d = raiseOverrun (syncStepW e f) := by
  simp only [writeEdge, writeCase_rejectedFull hrst hres hovf hfull]

/-- What every `wr_clk` edge out of reset does, whatever it decides (40_write_port.md R100, R102). -/
theorem writeEdge_frame (e : Env) (en : Bool) (d : Record p.W) (hrst : f.rst = false)
    (hres : f.wInReset = false) :
    SteppedW f (writeEdge e f en d) ∧ (writeEdge e f en d).wr.wrst = f.wr.wrst ∧
      SameReset f (writeEdge e f en d) := by
  obtain ⟨hhigh, -⟩ | ⟨-, hin, -⟩ | ⟨-, -, ⟨-, hg⟩ | ⟨-, -, hg⟩ | ⟨-, -, -, hg⟩ | ⟨-, -, -, hg⟩⟩ :=
    writeEdge_cases e f en d
  case inl => exact absurd hhigh (by simp [hrst])
  case inr.inl => exact absurd hin (by simp [hres])
  all_goals rw [hg]; exact ⟨syncStepW_stepped e f, rfl, rfl, rfl, rfl⟩

/-- An operation of the write port is a `wr_clk` edge. -/
theorem exec_wport {i : Instr} (hport : i.format = .wport) (hwf : i.wf p.W = true) (f : Fifo p)
    (e : Env) : ∃ en d, exec i ⟨p, f, e⟩ = .next ⟨p, writeEdge e f en d, e⟩ := by
  cases i with
  | push d => exact ⟨true, _, exec_push (of_decide_eq_true hwf)⟩
  | widle x => exact ⟨false, _, exec_widle f e x⟩
  | _ => cases hport

/-! ### The arithmetic of an index -/

/-- The buffer is full when the next index is the sentinel's (40_write_port.md R105). -/
theorem writableW_eq_zero_iff (f : Fifo p) :
    f.writableW = 0#p.AW ↔ f.wr.wbin + 1#p.AW = f.wqRbin := by
  rw [Fifo.writableW, BitVec.sub_sub]
  exact sub_eq_zero.trans eq_comm

/-- An index advances modulo `C`. -/
theorem toNat_add_one_eq_and_mask (x : Index p.AW) :
    (x + 1#p.AW).toNat = (x.toNat + 1) &&& p.MASK := by
  rw [BitVec.toNat_add, BitVec.toNat_one p.AW_pos]
  exact (Nat.and_two_pow_sub_one_eq_mod _ _).symm

/-! ### Consecutive pushes (40_write_port.md R110) -/

/-- What `k` accepted pushes make of a settled empty state `f`, as far as the next push reads it: the
write index has moved by `k`, and every read index on its way is still the one at which the pushes
started. -/
structure FilledBy (f : Fifo p) (k : Nat) (g : Fifo p) : Prop where
  rst_low : g.rst = false
  write_out : g.wInReset = false
  ovf_clear : g.wr.ovf = false
  wbin_eq : g.wr.wbin = f.wr.wbin + BitVec.ofNat p.AW k
  view_eq : ∀ x ∈ readIndexHistory g, bin x = f.wr.wbin

/-- What `k ≤ C` pushes make of a settled empty state `f`: the first `C - 1` are accepted and push number
`C` latches overrun. -/
def PushedBy (f : Fifo p) (k : Nat) (g : Fifo p) : Prop :=
  (k < p.C → FilledBy f k g) ∧
  (k = p.C → g.wr.ovf = true ∧ g.wr.wbin = f.wr.wbin + BitVec.ofNat p.AW (p.C - 1))

/-- In a settled empty state even an open draw of the read index can only show the read index: it lies
between the truth and the oldest view, which are equal. -/
theorem filledBy_zero (hinv : Inv f) (hs : Settled f) (hempty : f.occupancy = 0#p.AW)
    (hovf : f.wr.ovf = false) : FilledBy f 0 f where
  rst_low := hs.rst_low
  write_out := hs.write_out
  ovf_clear := hovf
  wbin_eq := (BitVec.add_zero _).symm
  view_eq x hx := by
    have hlast : f.wr.wsyncR.last = f.rd.rgray := by
      rw [hs.wsyncR_eq, Chain.last_fill _ (Nat.le_of_succ_le p.NS_two)]
    have hle := (behindWrite_bounds hinv.domain hinv.order hx).2
    rw [hlast, behindWrite_rgray hinv.domain, hempty, BitVec.toNat_zero] at hle
    have hzero : f.wr.wbin - bin x = 0#p.AW := BitVec.eq_of_toNat_eq (Nat.le_zero.1 hle)
    exact (sub_eq_zero.1 hzero).symm

theorem writableW_of_filledBy {k : Nat} (h : FilledBy f k g) (hk : k < p.C) :
    g.writableW.toNat = p.C - 1 - k := by
  have hlast : g.wr.wsyncR.last ∈ readIndexHistory g := by
    rw [Chain.last_eq_getLast _ (Nat.le_of_succ_le p.NS_two)]
    exact List.mem_cons_of_mem _ (List.mem_append_right _ (List.getLast_mem _))
  have hbehind : behindWrite g g.wr.wsyncR.last = k := by
    rw [behindWrite, h.view_eq _ hlast, h.wbin_eq, add_sub_cancel_left, BitVec.toNat_ofNat]
    exact Nat.mod_eq_of_lt hk
  rw [writableW_toNat, hbehind]

/-- With a slot to spare besides the sentinel a push is accepted. -/
theorem filledBy_writeEdge {k : Nat} (h : FilledBy f k g) (hk : k + 1 < p.C) (e : Env)
    (d : Record p.W) : FilledBy f (k + 1) (writeEdge e g true d) := by
  have hcount := writableW_of_filledBy h (Nat.lt_of_succ_lt hk)
  have hfree : g.writableW ≠ 0#p.AW := fun h0 => by
    rw [h0, BitVec.toNat_zero] at hcount
    omega
  rw [writeEdge_accepted e d ⟨h.rst_low, h.write_out, h.ovf_clear, hfree⟩]
  exact {
    rst_low := h.rst_low
    write_out := h.write_out
    ovf_clear := h.ovf_clear
    wbin_eq := by
      rw [storeAndAdvance_wr_wbin, syncStepW_wr_wbin, h.wbin_eq, BitVec.add_assoc, BitVec.ofNat_add]
    view_eq := fun x hx =>
      h.view_eq x (linkHistory_took_subset (syncStepW_stepped e g).1 rfl hx) }

/-- With `C - 1` records stored the next push latches overrun and moves no index. -/
theorem overrun_of_filledBy (h : FilledBy f (p.C - 1) g) (e : Env) (d : Record p.W) :
    (writeEdge e g true d).wr.ovf = true ∧
      (writeEdge e g true d).wr.wbin = f.wr.wbin + BitVec.ofNat p.AW (p.C - 1) := by
  have hcount := writableW_of_filledBy h (Nat.sub_one_lt (Nat.two_pow_pos p.AW).ne')
  have hfull : g.writableW = 0#p.AW := BitVec.eq_of_toNat_eq (hcount.trans (Nat.sub_self _))
  rw [writeEdge_rejectedFull e d h.rst_low h.write_out h.ovf_clear hfull]
  exact ⟨rfl, h.wbin_eq⟩

theorem pushedBy_writeEdge {k : Nat} (h : PushedBy f k g) (e : Env) (d : Record p.W) :
    PushedBy f (k + 1) (writeEdge e g true d) := by
  obtain ⟨hfilled, -⟩ := h
  refine ⟨fun hk => filledBy_writeEdge (hfilled (Nat.lt_of_succ_lt hk)) hk e d, fun hk => ?_⟩
  obtain rfl : k = p.C - 1 := by omega
  exact overrun_of_filledBy (hfilled (by omega)) e d

/-- The first `k` of a list of pushes, from a settled empty state. -/
theorem run_pushes (hinv : Inv f) (hs : Settled f) (hempty : f.occupancy = 0#p.AW)
    (hovf : f.wr.ovf = false) {ls : List StimLine}
    (hpush : ∀ l ∈ ls, ∃ d, l.op = .push d ∧ d < 2 ^ p.W) {k : Nat} (hk : k ≤ ls.length)
    (rest : List PinEvent) (ds : DrawSel) (tick : Nat) :
    ∃ g e', run k ⟨p, f, ⟨lineEvents p ls ++ rest, ds, tick⟩⟩ = .next ⟨p, g, e'⟩ ∧
      PushedBy f k g := by
  have hfirst : ∀ l ∈ ls.take k, ∃ d, l.op = .push d ∧ d < 2 ^ p.W :=
    fun l hl => hpush l (List.mem_of_mem_take hl)
  have hstart : PushedBy f 0 f :=
    ⟨fun _ => filledBy_zero hinv hs hempty hovf, fun h0 => absurd h0 (Nat.two_pow_pos p.AW).ne⟩
  obtain ⟨g, ds', tick', hrun, hg⟩ := run_lineEvents (P := PushedBy f) (ls := ls.take k)
    (fun l hl => by
      obtain ⟨d, hop, hd⟩ := hfirst l hl
      exact hop ▸ decide_eq_true hd)
    (fun l hl j g g' e hP hexec => by
      obtain ⟨d, hop, hd⟩ := hfirst l hl
      rw [hop, exec_push hd] at hexec
      cases hexec
      exact pushedBy_writeEdge hP e _)
    hstart (lineEvents p (ls.drop k) ++ rest) ds tick
  rw [← List.append_assoc, ← lineEvents_append, List.take_append_drop, List.length_take_of_le hk]
    at hrun
  rw [List.length_take_of_le hk, Nat.zero_add] at hg
  exact ⟨g, _, hrun, hg⟩

end WritePort

/-! ### The statements -/

/-- Settles O11: with `rst = 1` the edge is held; in reset it is the release step, which gives `ovf` the
value that stage `NS` takes. -/
theorem writeEdgesDuringReset : Obligations.WriteEdgesDuringReset := by
  intro p f e i hport hwf
  obtain ⟨en, d, hexec⟩ := exec_wport hport hwf f e
  refine ⟨fun hrst => ?_, fun hrst hres => ?_⟩
  · rw [hexec, writeEdge_held e en d hrst]
  · rw [writeEdge_releasing e en d hrst hres] at hexec
    have htook : ChainTook f.links.wRst f.rst f.wr.wrst (releaseStepW e f).wr.wrst :=
      ⟨_, sample_allowed e .wRst _ _, Chain.stages_shift _ _ (Nat.le_of_succ_le p.NS_two)⟩
    exact ⟨releaseStepW e f, hexec, htook, rfl, (releaseStepW_wInReset e f).symm, rfl, rfl, rfl, rfl,
      rfl, rfl, rfl, changed_marks _ _ _, rfl⟩

/-- Settles O16: every push out of reset has the frame of its edge; `ovf` and `writable_w` choose between
the synchronizer step alone, the overrun, and the store. -/
theorem pushOutOfResetFollowsPseudocode : Obligations.PushOutOfResetFollowsPseudocode := by
  intro p f e d hrst hres hd
  obtain ⟨hstep, hwrst, hsame⟩ := writeEdge_frame e true (BitVec.ofNat p.W d) hrst hres
  refine ⟨_, exec_push hd, hstep, hwrst, writeEdge_rd _ _ _ _, hsame,
    fun a ha => writeEdge_read_other e true _ ha, writableW_eq_zero_iff f, ?latched, ?full, ?accepted⟩
  case latched =>
    intro hovf
    rw [writeEdge_rejectedLatched e _ hrst hres hovf]
    exact ⟨rfl, rfl, hovf, fun _ => rfl, rfl, rfl⟩
  case full =>
    intro hovf hfull
    rw [writeEdge_rejectedFull e _ hrst hres hovf hfull]
    refine ⟨rfl, rfl, rfl, fun _ => rfl, rfl, ?_⟩
    simp [hovf, changed_ne]
  case accepted =>
    intro hovf hfree
    rw [writeEdge_accepted e _ ⟨hrst, hres, hovf, hfree⟩]
    exact ⟨Memory.read_write_same _ _ _, toNat_add_one_eq_and_mask _, rfl, hovf,
      changed_marks _ _ _, rfl⟩

/-- Settles O17: out of reset an edge without `wr_en` is the synchronizer step. -/
theorem widleOutOfResetOnlySynchronizes : Obligations.WidleOutOfResetOnlySynchronizes := by
  intro p f e x hrst hres
  have hexec := exec_widle f e x
  rw [writeEdge_idle e _ hrst hres] at hexec
  exact ⟨syncStepW e f, hexec, syncStepW_stepped e f, rfl, rfl, rfl, rfl, rfl, ⟨rfl, rfl, rfl⟩, rfl,
    rfl, rfl⟩

/-- Settles O19, by induction on the pushes: the read index seen stays where the pushes started, so each
accepted push takes one from `writable_w`, and after `C - 1` of them it is 0. -/
theorem overrunBoundaryAtCapacityMinusOne : Obligations.OverrunBoundaryAtCapacityMinusOne := by
  intro p f ls rest ds tick hinv hs hempty hovf hlen hpush
  have hpos : 0 < p.C := Nat.two_pow_pos p.AW
  constructor
  · intro k hk
    obtain ⟨g, e', hrun, hfilled, -⟩ :=
      run_pushes hinv hs hempty hovf hpush (k := k) (by omega) rest ds tick
    have hg := hfilled (by omega)
    exact ⟨g, e', hrun, hg.ovf_clear, hg.wbin_eq, writableW_of_filledBy hg (by omega)⟩
  · obtain ⟨g, e', hrun, -, hoverrun⟩ :=
      run_pushes hinv hs hempty hovf hpush (k := p.C) hlen.ge rest ds tick
    exact ⟨g, e', hrun, hoverrun rfl⟩

end Sys2Proof.Machine
end

section
/-! PROOFS. The read port (41_read_port.md R121 to R130): what an edge does in each case, and a pop made
when `rd_ready = 1`. -/

namespace Sys2Proof.Machine

open Sys2Proof

section ReadPort
variable {p : Params} {f : Fifo p}

/-! ### The cases of an edge -/

theorem readEdge_held (e : Env) (en : Bool) (hrst : f.rst = true) : readEdge e f en = f := by
  simp only [readEdge, readCase_held en hrst]

theorem readEdge_releasing (e : Env) (en : Bool) (hrst : f.rst = false) (hres : f.rInReset = true) :
    readEdge e f en = releaseStepR e f := by
  simp only [readEdge, readCase_releasing en hrst hres]

theorem readEdge_rejectedEmpty (e : Env) (hrst : f.rst = false) (hres : f.rInReset = false)
    (hnone : f.readableR = 0#p.AW) : readEdge e f true = raiseUnderrun (syncStepR e f) := by
  simp only [readEdge, readCase_rejectedEmpty hrst hres hnone]

/-- What every `rd_clk` edge out of reset does, whatever it decides (41_read_port.md R120, R122). -/
theorem readEdge_frame (e : Env) (en : Bool) (hrst : f.rst = false) (hres : f.rInReset = false) :
    SteppedR f (readEdge e f en) ∧ (readEdge e f en).rd.rrst = f.rd.rrst ∧
      SameReset f (readEdge e f en) := by
  obtain ⟨hhigh, -⟩ | ⟨-, hin, -⟩ | ⟨-, -, ⟨-, hg⟩ | ⟨-, -, hg⟩ | ⟨-, -, hg⟩⟩ := readEdge_cases e f en
  case inl => exact absurd hhigh (by simp [hrst])
  case inr.inl => exact absurd hin (by simp [hres])
  all_goals rw [hg]; exact ⟨syncStepR_stepped e f, rfl, rfl, rfl, rfl⟩

/-- An operation of the read port is an `rd_clk` edge. -/
theorem exec_rport {i : Instr} (hport : i.format = .rport) (f : Fifo p) (e : Env) :
    ∃ en, exec i ⟨p, f, e⟩ = .next ⟨p, readEdge e f en, e⟩ := by
  cases i with
  | pop => exact ⟨true, exec_pop f e⟩
  | ridle => exact ⟨false, exec_ridle f e⟩
  | _ => cases hport

/-! ### `rd_ready` and acceptance (41_read_port.md R130) -/

/-- While `rst = 1` the read domain is in reset. -/
theorem rInReset_of_rst (h : ResetInv f) (hrst : f.rst = true) : f.rInReset = true := by
  rw [Fifo.rInReset, h.2.held hrst]
  exact Chain.last_fill true (Nat.le_of_succ_le p.NS_two)

/-- `rd_ready` says that the next pop is accepted: with `rst = 1` the read domain is in reset. -/
theorem rdReady_iff_popAccepted (h : ResetInv f) : f.rdReady = true ↔ PopAccepted f := by
  have hrst : f.rInReset = false → f.rst = false := fun hres =>
    Bool.eq_false_iff.2 fun hr => Bool.eq_false_iff.1 hres (rInReset_of_rst h hr)
  simp only [Fifo.rdReady, Fifo.rdEmpty, PopAccepted, Bool.and_eq_true, Bool.not_eq_true',
    decide_eq_false_iff_not]
  exact ⟨fun ⟨hrec, hres⟩ => ⟨hrst hres, hres, hrec⟩, fun ⟨_, hres, hrec⟩ => ⟨hrec, hres⟩⟩

end ReadPort

/-! ### The statements -/

/-- Settles O12: with `rst = 1` the edge is held; in reset it is the release step, which leaves
`rsync_o`, whose last stage the invariant holds at 1 throughout reset. -/
theorem readEdgesDuringReset : Obligations.ReadEdgesDuringReset := by
  intro p f e i hport
  obtain ⟨en, hexec⟩ := exec_rport hport f e
  refine ⟨fun hrst => ?_, fun hrst hres => ?_⟩
  · rw [hexec, readEdge_held e en hrst]
  · rw [readEdge_releasing e en hrst hres] at hexec
    have htook : ChainTook f.links.rRst f.rst f.rd.rrst (releaseStepR e f).rd.rrst :=
      ⟨_, sample_allowed e .rRst _ _, Chain.stages_shift _ _ (Nat.le_of_succ_le p.NS_two)⟩
    have hoverrun : DomainInv f → (releaseStepR e f).rdOverrun = true :=
      fun hd => hd.rd_overrun_in_reset hres
    exact ⟨releaseStepR e f, hexec, htook, rfl, rfl, rfl, rfl, rfl, hoverrun, rfl, rfl, rfl, rfl⟩

/-- Settles O20: every pop out of reset has the frame of its edge; `readable_r` chooses between the
underrun and the head record. -/
theorem popOutOfResetFollowsPseudocode : Obligations.PopOutOfResetFollowsPseudocode := by
  intro p f e hrst hres
  obtain ⟨hstep, hrrst, hsame⟩ := readEdge_frame e true hrst hres
  refine ⟨_, exec_pop f e, hstep, hrrst, readEdge_wr e f true, hsame, readEdge_storage e f true,
    ?empty, ?accepted⟩
  case empty =>
    intro hnone
    rw [readEdge_rejectedEmpty e hrst hres hnone]
    exact ⟨rfl, rfl, rfl, changed_marks _ _ _, rfl⟩
  case accepted =>
    intro hrec
    have hacc : PopAccepted f := ⟨hrst, hres, hrec⟩
    rw [readEdge_accepted e hacc]
    exact ⟨fun obs => rdData_of_not_empty e obs (not_rdEmpty_of_popAccepted hacc), rfl,
      toNat_add_one_eq_and_mask _, rfl, changed_marks _ _ _, changed_marks _ _ _⟩

/-- Settles O21: out of reset an edge without `rd_en` is the synchronizer step. -/
theorem ridleOutOfResetOnlySynchronizes : Obligations.RidleOutOfResetOnlySynchronizes := by
  intro p f e hrst hres
  have hexec := exec_ridle f e
  rw [readEdge_idle e hrst hres] at hexec
  exact ⟨syncStepR e f, hexec, syncStepR_stepped e f, rfl, rfl, rfl, rfl, rfl, ⟨rfl, rfl, rfl⟩, rfl,
    rfl, rfl⟩

/-- Settles O22: under the invariants `rd_ready` is the condition of acceptance, and an accepted pop
takes the head of the queue, which `rd_data` shows. -/
theorem rdReadyPopReturnsTheOldestRecord : Obligations.RdReadyPopReturnsTheOldestRecord := by
  intro p f e obs hinv hready
  have hacc : PopAccepted f := (rdReady_iff_popAccepted hinv.reset).1 hready
  have hedge := readEdge_accepted e hacc
  have hdata : (State.outputs ⟨p, f, e⟩ obs).rdData = Memory.read f.storage f.rd.rbin.toNat :=
    rdData_of_not_empty e obs (not_rdEmpty_of_popAccepted hacc)
  refine ⟨_, exec_pop f e, ?_, ?_, ?_⟩
  · rw [hedge, consumeAndAdvance_rd_udf]
  · rw [hedge, consumeAndAdvance_rd_rbin, syncStepR_rd_rbin]
  · rw [hdata]
    exact contents_readEdge_accepted e hinv hacc

end Sys2Proof.Machine
end

section
/-! PROOFS. Crossing between the clock domains, event by event: samples, the marks that a change of a
source leaves on its links, what a domain can see of the other one, and the two views of the indices
(42_cdc_sync.md R140 to R152). -/

namespace Sys2Proof.Machine

open Sys2Proof

/-! ### Samples under a directive (30_encoding.md R83) -/

section Samples
variable {α : Type} {e : Env} {b : LinkBook α}

theorem sample_of_draw_new (l : Link) (b : LinkBook α) (cur : α) (h : e.draw = .new) :
    sample e l b cur = cur := by simp [sample, h]

theorem sample_of_draw_old (l : Link) (cur : α) (h : e.draw = .old) (hdirty : b.dirty = true) :
    sample e l b cur = b.prev := by simp [sample, h, hdirty]

end Samples

section Crossing
variable {p : Params} {f f' g : Fifo p}

/-! ### The level of `rst` -/

/-- No clock edge moves `rst`. -/
@[simp] theorem writeEdge_rst (e : Env) (f : Fifo p) (en : Bool) (d : Record p.W) :
    (writeEdge e f en d).rst = f.rst := by
  obtain ⟨-, hg⟩ | ⟨-, -, hg⟩ | ⟨-, -, ⟨-, hg⟩ | ⟨-, -, hg⟩ | ⟨-, -, -, hg⟩ | ⟨-, -, -, hg⟩⟩ :=
    writeEdge_cases e f en d <;> rw [hg] <;> rfl

@[simp] theorem readEdge_rst (e : Env) (f : Fifo p) (en : Bool) :
    (readEdge e f en).rst = f.rst := by
  obtain ⟨-, hg⟩ | ⟨-, -, hg⟩ | ⟨-, -, ⟨-, hg⟩ | ⟨-, -, hg⟩ | ⟨-, -, hg⟩⟩ :=
    readEdge_cases e f en <;> rw [hg] <;> rfl

/-! ### Operations by port (30_encoding.md R75) -/

/-- What an operation does, told by its port: only a push raises `wr_en`, only a pop raises `rd_en`. -/
theorem exec_port_cases {e : Env} {i : Instr} (h : exec i ⟨p, f, e⟩ = .next ⟨p, g, e⟩) :
    (i.format = .wport ∧ ∃ en d, (en = true → ∃ n, i = .push n) ∧ g = writeEdge e f en d) ∨
    (i.format = .rport ∧ ∃ en, (en = true → i = .pop) ∧ g = readEdge e f en) ∨
    (i = .rstAssert ∧ g = if f.rst then f else forceReset f) ∨
    (i = .rstRelease ∧ g = if f.rst then dropReset f else f) := by
  obtain ⟨g', hg, ⟨d, rfl, -, rfl⟩ | ⟨x, rfl, rfl⟩ | ⟨rfl, rfl⟩ | ⟨rfl, rfl⟩ | hrise | hfall⟩ :=
    exec_next_cases h <;> cases hg
  · exact .inl ⟨rfl, true, _, fun _ => ⟨d, rfl⟩, rfl⟩
  · exact .inl ⟨rfl, false, _, fun hen => absurd hen Bool.false_ne_true, rfl⟩
  · exact .inr (.inl ⟨rfl, true, fun _ => rfl, rfl⟩)
  · exact .inr (.inl ⟨rfl, false, fun hen => absurd hen Bool.false_ne_true, rfl⟩)
  · exact .inr (.inr (.inl hrise))
  · exact .inr (.inr (.inr hfall))

/-! ### The marks of a source change (42_cdc_sync.md R143) -/

/-- Only an accepted push changes `wgray`, and it marks `L_WPTR`. -/
theorem writeEdge_wgray_changed {e : Env} {en : Bool} {d : Record p.W}
    (h : (writeEdge e f en d).wr.wgray ≠ f.wr.wgray) :
    (writeEdge e f en d).links.wptr = ⟨f.wr.wgray, true⟩ ∧ en = true ∧ PushAccepted f := by
  obtain ⟨-, hg⟩ | ⟨-, -, hg⟩ |
      ⟨hrst, hres, ⟨-, hg⟩ | ⟨-, -, hg⟩ | ⟨-, -, -, hg⟩ | ⟨hen, hovf, hfree, hg⟩⟩ :=
    writeEdge_cases e f en d <;> rw [hg] at h ⊢
  case inr.inr.inr.inr.inr => exact ⟨changed_ne _ h, hen, hrst, hres, hovf, hfree⟩
  all_goals exact absurd rfl h

/-- Only a push on full and a release edge change `ovf`, and they mark `L_OVF`. -/
theorem writeEdge_ovf_changed {e : Env} {en : Bool} {d : Record p.W}
    (h : (writeEdge e f en d).wr.ovf ≠ f.wr.ovf) :
    (writeEdge e f en d).links.ovf = ⟨f.wr.ovf, true⟩ ∧
      ((f.wr.ovf = false ∧ f.rst = false ∧ f.wInReset = false ∧ en = true ∧ f.writableW = 0#p.AW) ∨
       (f.rst = false ∧ f.wInReset = true ∧
          (writeEdge e f en d).wr.ovf = (writeEdge e f en d).wInReset)) := by
  obtain ⟨-, hg⟩ | ⟨hrst, hres, hg⟩ |
      ⟨hrst, hres, ⟨-, hg⟩ | ⟨-, -, hg⟩ | ⟨hen, hovf, hfull, hg⟩ | ⟨-, -, -, hg⟩⟩ :=
    writeEdge_cases e f en d <;> rw [hg] at h ⊢
  case inr.inl =>
    exact ⟨changed_ne _ h, .inr ⟨hrst, hres, (releaseStepW_wInReset e f).symm⟩⟩
  case inr.inr.inr.inr.inl => exact ⟨changed_ne _ h, .inl ⟨hovf, hrst, hres, hen, hfull⟩⟩
  all_goals exact absurd rfl h

/-- Only an accepted pop changes `rgray`, and it marks `L_RPTR`. -/
theorem readEdge_rgray_changed {e : Env} {en : Bool} (h : (readEdge e f en).rd.rgray ≠ f.rd.rgray) :
    (readEdge e f en).links.rptr = ⟨f.rd.rgray, true⟩ ∧ en = true ∧ PopAccepted f := by
  obtain ⟨-, hg⟩ | ⟨-, -, hg⟩ | ⟨hrst, hres, ⟨-, hg⟩ | ⟨-, -, hg⟩ | ⟨hen, hrec, hg⟩⟩ :=
    readEdge_cases e f en <;> rw [hg] at h ⊢
  case inr.inr.inr.inr => exact ⟨changed_ne _ h, hen, hrst, hres, hrec⟩
  all_goals exact absurd rfl h

/-- Only a pop out of reset changes `udf`: an accepted one clears it, a rejected one sets it, and both
mark `L_UDF`. -/
theorem readEdge_udf_changed {e : Env} {en : Bool} (h : (readEdge e f en).rd.udf ≠ f.rd.udf) :
    (readEdge e f en).links.udf = ⟨f.rd.udf, true⟩ ∧ en = true ∧ f.rst = false ∧
      f.rInReset = false ∧ (f.rd.udf = true ↔ f.readableR ≠ 0#p.AW) := by
  obtain ⟨-, hg⟩ | ⟨-, -, hg⟩ | ⟨hrst, hres, ⟨-, hg⟩ | ⟨hen, hnone, hg⟩ | ⟨hen, hrec, hg⟩⟩ :=
    readEdge_cases e f en <;> rw [hg] at h ⊢
  case inr.inr.inr.inl =>
    have hudf : f.rd.udf = false := by simpa using h.symm
    exact ⟨changed_ne _ h, hen, hrst, hres, by simp [hudf, hnone]⟩
  case inr.inr.inr.inr =>
    have hudf : f.rd.udf = true := by simpa using h.symm
    exact ⟨changed_ne _ h, hen, hrst, hres, by simp [hudf, hrec]⟩
  all_goals exact absurd rfl h

/-! ### What a domain depends on (42_cdc_sync.md R140) -/

/-- The write domain and all that a `wr_clk` edge reads from outside it are the same in both states. -/
structure SameSeenByWrite (f f' : Fifo p) : Prop where
  rst_eq : f'.rst = f.rst
  wr_eq : f'.wr = f.wr
  rgray_eq : f'.rd.rgray = f.rd.rgray
  udf_eq : f'.rd.udf = f.rd.udf
  rptr_eq : f'.links.rptr = f.links.rptr
  udfLink_eq : f'.links.udf = f.links.udf
  wRst_eq : f'.links.wRst = f.links.wRst

/-- The read domain and all that an `rd_clk` edge reads from outside it are the same in both states. -/
structure SameSeenByRead (f f' : Fifo p) : Prop where
  rst_eq : f'.rst = f.rst
  rd_eq : f'.rd = f.rd
  wgray_eq : f'.wr.wgray = f.wr.wgray
  ovf_eq : f'.wr.ovf = f.wr.ovf
  wptr_eq : f'.links.wptr = f.links.wptr
  ovfLink_eq : f'.links.ovf = f.links.ovf
  rRst_eq : f'.links.rRst = f.links.rRst

/-- `readable_r` is a matter of the read domain's registers. -/
theorem readableR_congr (h : g.rd = f.rd) : g.readableR = f.readableR := by
  simp only [Fifo.readableR, Fifo.rqWbin, h]

/-- `writable_w` is a matter of the write domain's registers. -/
theorem writableW_congr (h : g.wr = f.wr) : g.writableW = f.writableW := by
  simp only [Fifo.writableW, Fifo.wqRbin, h]

/-- The case of a `wr_clk` edge is chosen from `rst` and the write domain alone. -/
theorem writeCase_congr (en : Bool) (hrst : f'.rst = f.rst) (hwr : f'.wr = f.wr) :
    f'.writeCase en = f.writeCase en := by
  rw [Fifo.writeCase, Fifo.writeCase, Fifo.wInReset, Fifo.wInReset, writableW_congr hwr, hrst, hwr]

/-- The case of an `rd_clk` edge is chosen from `rst` and the read domain alone. -/
theorem readCase_congr (en : Bool) (hrst : f'.rst = f.rst) (hrd : f'.rd = f.rd) :
    f'.readCase en = f.readCase en := by
  rw [Fifo.readCase, Fifo.readCase, Fifo.rInReset, Fifo.rInReset, readableR_congr hrd, hrst, hrd]

theorem SameSeenByWrite.syncStepW (h : SameSeenByWrite f f') (e : Env) :
    (syncStepW e f').wr = (syncStepW e f).wr := by
  simp only [Machine.syncStepW, h.wr_eq, h.rgray_eq, h.udf_eq, h.rptr_eq, h.udfLink_eq]

theorem SameSeenByWrite.releaseStepW (h : SameSeenByWrite f f') (e : Env) :
    (releaseStepW e f').wr = (releaseStepW e f).wr := by
  simp only [Machine.releaseStepW, h.wr_eq, h.rst_eq, h.wRst_eq]

theorem SameSeenByRead.syncStepR (h : SameSeenByRead f f') (e : Env) :
    (syncStepR e f').rd = (syncStepR e f).rd := by
  simp only [Machine.syncStepR, h.rd_eq, h.wgray_eq, h.ovf_eq, h.wptr_eq, h.ovfLink_eq]

theorem SameSeenByRead.releaseStepR (h : SameSeenByRead f f') (e : Env) :
    (releaseStepR e f').rd = (releaseStepR e f).rd := by
  simp only [Machine.releaseStepR, h.rd_eq, h.rst_eq, h.rRst_eq]

/-- An overrun touches only the write domain's own flag. -/
theorem raiseOverrun_wr (f : Fifo p) : (raiseOverrun f).wr = { f.wr with ovf := true } := rfl

/-- What a store makes of the write domain's registers depends on them alone. -/
theorem storeAndAdvance_wr (d : Record p.W) (f : Fifo p) : (storeAndAdvance d f).wr =
    { f.wr with wbin := f.wr.wbin + 1#p.AW, wgray := gray (f.wr.wbin + 1#p.AW) } := rfl

/-- An underrun touches only the read domain's own flag. -/
theorem raiseUnderrun_rd (f : Fifo p) : (raiseUnderrun f).rd = { f.rd with udf := true } := rfl

/-- What an accepted pop makes of the read domain's registers depends on them alone. -/
theorem consumeAndAdvance_rd (f : Fifo p) : (consumeAndAdvance f).rd =
    { f.rd with udf := false, rbin := f.rd.rbin + 1#p.AW, rgray := gray (f.rd.rbin + 1#p.AW) } := rfl

/-- A `wr_clk` edge leaves the same write domain where it finds the same. -/
theorem SameSeenByWrite.writeEdge (h : SameSeenByWrite f f') (e : Env) (en : Bool) (d : Record p.W) :
    (writeEdge e f' en d).wr = (writeEdge e f en d).wr := by
  have hsync := h.syncStepW e
  unfold Machine.writeEdge
  rw [writeCase_congr en h.rst_eq h.wr_eq]
  cases f.writeCase en with
  | held => exact h.wr_eq
  | releasing => exact h.releaseStepW e
  | idle => exact hsync
  | rejectedLatched => exact hsync
  | rejectedFull => simp only [raiseOverrun_wr, hsync]
  | accepted => simp only [storeAndAdvance_wr, hsync]

/-- An `rd_clk` edge leaves the same read domain where it finds the same. -/
theorem SameSeenByRead.readEdge (h : SameSeenByRead f f') (e : Env) (en : Bool) :
    (readEdge e f' en).rd = (readEdge e f en).rd := by
  have hsync := h.syncStepR e
  unfold Machine.readEdge
  rw [readCase_congr en h.rst_eq h.rd_eq]
  cases f.readCase en with
  | held => exact h.rd_eq
  | releasing => exact h.releaseStepR e
  | idle => exact hsync
  | rejectedEmpty => simp only [raiseUnderrun_rd, hsync]
  | accepted => simp only [consumeAndAdvance_rd, hsync]

/-! ### The views of the indices (42_cdc_sync.md R149) -/

/-- After a step of a chain its last stage holds a value that stood in the chain before. -/
theorem last_shift_mem_linkHistory {α : Type} [Inhabited α] {n : Nat} (cur v : α) (b : LinkBook α)
    (c : Chain α n) (hn : 2 ≤ n) : (c.shift v).last ∈ linkHistory cur b c := by
  have hlen := c.len
  rw [Chain.last_shift c v hn, Chain.stage, List.getD_eq_getElem _ _ (by omega)]
  exact List.mem_cons_of_mem _ (List.mem_append_right _ (List.getElem_mem _))

/-- A synchronizer step shows the read domain no fewer records. -/
theorem readableR_le_syncStepR (hd : DomainInv f) (ho : OrderInv f) (e : Env) :
    f.readableR.toNat ≤ (syncStepR e f).readableR.toNat :=
  (aheadOfRead_bounds hd ho (last_shift_mem_linkHistory _ _ _ _ p.NS_two)).1

/-- A synchronizer step shows the write domain no fewer free slots. -/
theorem writableW_le_syncStepW (hd : DomainInv f) (ho : OrderInv f) (e : Env) :
    f.writableW.toNat ≤ (syncStepW e f).writableW.toNat := by
  rw [writableW_toNat, writableW_toNat]
  exact Nat.sub_le_sub_left
    (behindWrite_bounds hd ho (last_shift_mem_linkHistory _ _ _ _ p.NS_two)).2 _

/-- An accepted pop takes one from `readable_r`. -/
theorem readableR_consumeAndAdvance (h : f.readableR.toNat ≠ 0) :
    (consumeAndAdvance f).readableR.toNat + 1 = f.readableR.toNat :=
  toNat_sub_succ p.AW_pos h

/-- An accepted push takes one from `writable_w`. -/
theorem writableW_storeAndAdvance (d : Record p.W) (h : f.writableW.toNat ≠ 0) :
    (storeAndAdvance d f).writableW.toNat + 1 = f.writableW.toNat := by
  have hview : (storeAndAdvance d f).writableW = f.wqRbin - 1#p.AW - (f.wr.wbin + 1#p.AW) := by
    show f.wqRbin - (f.wr.wbin + 1#p.AW) - 1#p.AW = _
    exact sub_right_comm _ _ _
  have hbefore : f.writableW = f.wqRbin - 1#p.AW - f.wr.wbin := sub_right_comm _ _ _
  rw [hview]
  rw [hbefore] at h ⊢
  exact toNat_sub_succ p.AW_pos h

/-- An `rd_clk` edge lowers `readable_r` only if `rd_en = 1`, and by at most one. -/
theorem readableR_le_readEdge (hd : DomainInv f) (ho : OrderInv f) (e : Env) (en : Bool) :
    f.readableR.toNat ≤ (readEdge e f en).readableR.toNat + en.toNat := by
  have hsync := readableR_le_syncStepR hd ho e
  obtain ⟨-, hg⟩ | ⟨-, -, hg⟩ | ⟨-, -, ⟨-, hg⟩ | ⟨-, -, hg⟩ | ⟨rfl, hrec, hg⟩⟩ :=
    readEdge_cases e f en <;> rw [hg]
  · exact Nat.le_add_right _ _
  · exact Nat.le_add_right _ _
  · exact Nat.le_add_right_of_le hsync
  · exact Nat.le_add_right_of_le hsync
  · have hpos : f.readableR.toNat ≠ 0 := fun h0 => hrec (BitVec.eq_of_toNat_eq h0)
    exact (readableR_consumeAndAdvance (f := syncStepR e f) (by omega)).symm ▸ hsync

/-- A `wr_clk` edge lowers `writable_w` only if `wr_en = 1`, and by at most one. -/
theorem writableW_le_writeEdge (hd : DomainInv f) (ho : OrderInv f) (e : Env) (en : Bool)
    (d : Record p.W) : f.writableW.toNat ≤ (writeEdge e f en d).writableW.toNat + en.toNat := by
  have hsync := writableW_le_syncStepW hd ho e
  obtain ⟨-, hg⟩ | ⟨-, -, hg⟩ | ⟨-, -, ⟨-, hg⟩ | ⟨-, -, hg⟩ | ⟨-, -, -, hg⟩ | ⟨rfl, -, hfree, hg⟩⟩ :=
    writeEdge_cases e f en d <;> rw [hg]
  · exact Nat.le_add_right _ _
  · exact Nat.le_add_right _ _
  · exact Nat.le_add_right_of_le hsync
  · exact Nat.le_add_right_of_le hsync
  · exact Nat.le_add_right_of_le hsync
  · have hpos : f.writableW.toNat ≠ 0 := fun h0 => hfree (BitVec.eq_of_toNat_eq h0)
    exact (writableW_storeAndAdvance (f := syncStepW e f) d (by omega)).symm ▸ hsync

/-! ### Coincident edges (42_cdc_sync.md R152) -/

/-- Successive indices have different gray codes. -/
theorem gray_add_one_ne {n : Nat} (hn : 1 ≤ n) (b : Index n) : gray (b + 1#n) ≠ gray b := by
  obtain ⟨i, hi, hdiff⟩ := gray_add_one_differ hn b
  exact fun heq => (hdiff i hi).2 rfl (by rw [heq])

/-- An accepted push changes `wgray`. -/
theorem gray_succ_wbin_ne_wgray (hd : DomainInv f) : gray (f.wr.wbin + 1#p.AW) ≠ f.wr.wgray :=
  hd.wgray_eq ▸ gray_add_one_ne p.AW_pos f.wr.wbin

/-- An idle `rd_clk` edge just after a store takes, with the old draw, the write index from before the
store: the edge leaves the same read domain as without the store. -/
theorem syncStepR_storeAndAdvance_rd {e : Env} (hdraw : e.draw = .old) (d : Record p.W)
    (hd : DomainInv f) (hclean : f.links.wptr.dirty = false) :
    (syncStepR e (storeAndAdvance d (syncStepW e f))).rd = (syncStepR e f).rd := by
  have hsample : sample e .wptr (f.links.wptr.changed f.wr.wgray (gray (f.wr.wbin + 1#p.AW)))
      (gray (f.wr.wbin + 1#p.AW)) = sample e .wptr f.links.wptr f.wr.wgray := by
    rw [changed_ne _ (gray_succ_wbin_ne_wgray hd), sample_of_draw_old _ _ hdraw rfl,
      sample_clean _ _ _ hclean]
  simp only [syncStepR, storeAndAdvance_rd, storeAndAdvance_links_wptr, storeAndAdvance_links_ovf,
    storeAndAdvance_wr_wgray, storeAndAdvance_wr_ovf, syncStepW_rd, syncStepW_wr_wbin,
    syncStepW_wr_wgray, syncStepW_wr_ovf, syncStepW_links_wptr, syncStepW_links_ovf, hsample]

end Crossing

/-! ### The statements -/

/-- Settles O32: a sample is one the draw allows, and the directives fix the draw. -/
theorem sampleIsPreviousOrCurrentValue : Obligations.SampleIsPreviousOrCurrentValue := by
  intro w tick ps ds l b cur
  exact ⟨sample_allowed _ l b cur, fun hnew => sample_of_draw_new l b cur hnew,
    fun hold hdirty => sample_of_draw_old l cur hold hdirty, rfl, rfl⟩

/-- Settles O33: each source is changed by the edges of its own port alone, and each edge that changes
it marks its links; `rst` falls at its release, which moves no register. -/
theorem sourceChangesMarkTheirLinks : Obligations.SourceChangesMarkTheirLinks := by
  intro p f g e i h hrise
  obtain ⟨hport, en, d, hpush, rfl⟩ | ⟨-, en, hpop, rfl⟩ | ⟨rfl, rfl⟩ | ⟨rfl, rfl⟩ :=
    exec_port_cases h
  · refine ⟨fun hne => ?wgray, fun hne => ?ovf, fun hne => absurd (by rw [writeEdge_rd]) hne,
      fun hne => absurd (by rw [writeEdge_rd]) hne, fun hne => absurd (writeEdge_rst e f en d) hne⟩
    case wgray =>
      obtain ⟨hmark, hen, hacc⟩ := writeEdge_wgray_changed hne
      exact ⟨hmark, hpush hen, hacc⟩
    case ovf =>
      obtain ⟨hmark, ⟨hovf, hrst, hres, hen, hfull⟩ | hrelease⟩ := writeEdge_ovf_changed hne
      · exact ⟨hmark, .inl ⟨hovf, hrst, hres, hpush hen, hfull⟩⟩
      · exact ⟨hmark, .inr ⟨hport, hrelease⟩⟩
  · refine ⟨fun hne => absurd (by rw [readEdge_wr]) hne, fun hne => absurd (by rw [readEdge_wr]) hne,
      fun hne => ?rgray, fun hne => ?udf, fun hne => absurd (readEdge_rst e f en) hne⟩
    case rgray =>
      obtain ⟨hmark, hen, hacc⟩ := readEdge_rgray_changed hne
      exact ⟨hmark, hpop hen, hacc⟩
    case udf =>
      obtain ⟨hmark, hen, hpopped⟩ := readEdge_udf_changed hne
      exact ⟨hmark, hpop hen, hpopped⟩
  · have hrst : f.rst = true := Bool.eq_true_of_not_eq_false fun hlow => hrise ⟨rfl, hlow⟩
    simp [hrst]
  · cases hrst : f.rst
    · simp [hrst]
    · simp [hrst, changed_ne]

/-- Settles O35: after the push the old draw shows the read domain the index from before it, which the
read edge before the push samples from the clean link; the write domain's edge reads nothing that an
idle read edge moves. -/
theorem coincidentEdgesAgreeOnTheOldDraw : Obligations.CoincidentEdgesAgreeOnTheOldDraw := by
  intro p f ps tick d hd hacc hrres hrecord hclean
  generalize he : (⟨ps, .old, tick⟩ : Env) = e
  have hdraw : e.draw = .old := he ▸ rfl
  have ⟨hrst, _⟩ := hacc
  have hacc' : PushAccepted (syncStepR e f) := hacc
  have hread : readEdge e (writeEdge e f true (BitVec.ofNat p.W d)) false =
      syncStepR e (storeAndAdvance (BitVec.ofNat p.W d) (syncStepW e f)) := by
    rw [writeEdge_accepted e _ hacc]
    exact readEdge_idle e hrst hrres
  refine ⟨_, _, _, _, exec_push hrecord, exec_ridle _ e, exec_ridle f e, exec_push hrecord, ?_⟩
  rw [hread, readEdge_idle e hrst hrres, writeEdge_accepted e _ hacc']
  exact ⟨syncStepR_storeAndAdvance_rd hdraw _ hd hclean, rfl, rfl, rfl,
    changed_ne _ (gray_succ_wbin_ne_wgray (f := f) hd)⟩

/-- Settles O36: a step of a chain brings stage `NS` a value that stood behind it, which the ordered
views put no further back; an accepted operation then takes one from its own count. -/
theorem viewsOnlyMoveForward : Obligations.ViewsOnlyMoveForward := by
  intro p f e i hinv hwf hrise
  obtain ⟨g, hexec⟩ := exec_next_of_wf f e hwf
  refine ⟨g, hexec, ?_⟩
  obtain ⟨hport, en, d, hpush, rfl⟩ | ⟨hport, en, hpop, rfl⟩ | ⟨rfl, rfl⟩ | ⟨rfl, rfl⟩ :=
    exec_port_cases hexec
  · have hwrite := writableW_le_writeEdge hinv.domain hinv.order e en d
    rw [readableR_congr (writeEdge_rd e f en d)]
    refine ⟨fun _ => le_rfl, Nat.le_succ _, fun hne => ?_,
      hwrite.trans (Nat.add_le_add_left en.toNat_le _)⟩
    have hen : en = false := Bool.eq_false_iff.2 fun hen => (hpush hen).elim hne
    rwa [hen] at hwrite ⊢
  · have hread := readableR_le_readEdge hinv.domain hinv.order e en
    rw [writableW_congr (readEdge_wr e f en)]
    refine ⟨fun hne => ?_, hread.trans (Nat.add_le_add_left en.toNat_le _), fun _ => le_rfl,
      Nat.le_succ _⟩
    have hen : en = false := Bool.eq_false_iff.2 fun hen => hne (hpop hen)
    rwa [hen] at hread ⊢
  · have hrst : f.rst = true := Bool.eq_true_of_not_eq_false fun hlow => hrise ⟨rfl, hlow⟩
    rw [if_pos hrst]
    exact ⟨fun _ => le_rfl, Nat.le_succ _, fun _ => le_rfl, Nat.le_succ _⟩
  · cases f.rst <;>
      exact ⟨fun _ => le_rfl, Nat.le_succ _, fun _ => le_rfl, Nat.le_succ _⟩

/-- Settles O47: an edge chooses its case from the domain's own registers and `rst`, and its samples
come from the links into the domain. -/
theorem nothingCrossesButTheLinks : Obligations.NothingCrossesButTheLinks := by
  intro p f f' e i hwf hrst
  constructor
  · intro hport hwr hrgray hudf hrptr hudfLink hwRst
    have hsame : SameSeenByWrite f f' := ⟨hrst, hwr, hrgray, hudf, hrptr, hudfLink, hwRst⟩
    cases i with
    | push d =>
      have hd : d < 2 ^ p.W := of_decide_eq_true hwf
      exact ⟨_, _, exec_push hd, exec_push hd, hsame.writeEdge e true _⟩
    | widle x => exact ⟨_, _, exec_widle f e x, exec_widle f' e x, hsame.writeEdge e false _⟩
    | _ => cases hport
  · intro hport hrd hwgray hovf hwptr hovfLink hrRst
    have hsame : SameSeenByRead f f' := ⟨hrst, hrd, hwgray, hovf, hwptr, hovfLink, hrRst⟩
    cases i with
    | pop => exact ⟨_, _, exec_pop f e, exec_pop f' e, hsame.readEdge e true⟩
    | ridle => exact ⟨_, _, exec_ridle f e, exec_ridle f' e, hsame.readEdge e false⟩
    | _ => cases hport

end Sys2Proof.Machine
end

section
/-! PROOFS. Crossing between the clock domains along consecutive edges: how many edges of one clock
bring the other domain's registers, or the fall of `rst`, through a chain, and what the first draw
decides (42_cdc_sync.md R150). -/

namespace Sys2Proof.Machine

open Sys2Proof

/-! ### Runs with their draws -/

section DrawnRuns
variable {p : Params} {f g : Fifo p}

/-- On a clock port the directive of a line is in force at its edge (30_encoding.md R83). -/
theorem event_drawSel {l : StimLine} (w : Nat) (hport : l.op.format ≠ .rst) :
    (l.event w).drawSel = l.draw := by
  obtain ⟨i, d⟩ := l
  cases i with
  | push _ | widle _ | pop | ridle => rfl
  | rstAssert | rstRelease => exact absurd rfl hport

/-- The induction over the edges of a program with their draws: what every edge carries from the draws
so far to those with its own holds at the end, of all of them. -/
theorem run_edges {P : List DrawSel → Fifo p → Prop} {ls : List StimLine}
    (hwf : ∀ l ∈ ls, l.op.wf p.W = true) (hport : ∀ l ∈ ls, l.op.format ≠ .rst)
    (hstep : ∀ l ∈ ls, ∀ draws f g e, P draws f → e.draw = l.draw →
      exec l.op ⟨p, f, e⟩ = .next ⟨p, g, e⟩ → P (draws ++ [l.draw]) g)
    {draws : List DrawSel} {f : Fifo p} (h : P draws f) (rest : List PinEvent) (ds : DrawSel)
    (tick : Nat) :
    ∃ g ds' tick', run ls.length ⟨p, f, ⟨lineEvents p ls ++ rest, ds, tick⟩⟩ =
      .next ⟨p, g, ⟨rest, ds', tick'⟩⟩ ∧ P (draws ++ ls.map StimLine.draw) g := by
  induction ls generalizing draws f ds tick with
  | nil => exact ⟨f, ds, tick, rfl, by rwa [List.map_nil, List.append_nil]⟩
  | cons l ls ih =>
    obtain ⟨hwfl, hwf⟩ := List.forall_mem_cons.1 hwf
    obtain ⟨hportl, hport⟩ := List.forall_mem_cons.1 hport
    obtain ⟨hstepl, hstep⟩ := List.forall_mem_cons.1 hstep
    have hl := step_line f l (lineEvents p ls ++ rest) ds tick hwfl
    obtain ⟨f', hf'⟩ := exec_next_of_wf f
      ⟨lineEvents p ls ++ rest, (l.event p.W).drawSel, tick + 1⟩ hwfl
    obtain ⟨g, ds', tick', hrun, hg⟩ :=
      ih hwf hport hstep (hstepl draws f f' _ h (event_drawSel p.W hportl) hf') _ _
    refine ⟨g, ds', tick', (run_succ_next (hl.trans hf')).trans hrun, ?_⟩
    rwa [List.append_assoc] at hg

/-- A fall of `rst` before the edges of a program. -/
theorem run_fall {e' : Env} (hrst : f.rst = true) {ls : List StimLine} {rest : List PinEvent}
    (ds : DrawSel) {tick : Nat}
    (hrun : run ls.length ⟨p, dropReset f, ⟨lineEvents p ls ++ rest, .free, tick + 1⟩⟩ =
      .next ⟨p, g, e'⟩) :
    run (ls.length + 1) ⟨p, f, ⟨lineEvents p (plainLine .rstRelease :: ls) ++ rest, ds, tick⟩⟩ =
      .next ⟨p, g, e'⟩ := by
  have hfall := step_line f (plainLine .rstRelease) (lineEvents p ls ++ rest) ds tick rfl
  rw [plainLine, exec_rstRelease, if_pos hrst] at hfall
  exact (run_succ_next hfall).trans hrun

end DrawnRuns

/-! ### What the first draw decides -/

/-- How many samples edges with these draws count for towards delivery: a new draw at the first edge
saves the sample that another draw may waste. -/
def samplesBy (draws : List DrawSel) : Nat :=
  draws.length + if draws.head? = some .new then 1 else 0

/-- How many stages edges with these draws can have changed: an old draw at the first edge changes
none. -/
def stagesBy (draws : List DrawSel) : Nat :=
  draws.length - if draws.head? = some .old then 1 else 0

section Draws
variable {draws : List DrawSel}

theorem samplesBy_append (hne : draws ≠ []) (d : DrawSel) :
    samplesBy (draws ++ [d]) = samplesBy draws + 1 := by
  rw [samplesBy, samplesBy, List.head?_append_of_ne_nil draws hne, List.length_append,
    List.length_singleton, Nat.add_right_comm]

theorem stagesBy_append (hne : draws ≠ []) (d : DrawSel) :
    stagesBy (draws ++ [d]) = stagesBy draws + 1 := by
  have hpos := List.length_pos_iff.2 hne
  rw [stagesBy, stagesBy, List.head?_append_of_ne_nil draws hne, List.length_append,
    List.length_singleton]
  split <;> omega

/-- Another edge changes one more stage, but for an old draw at the first edge. -/
theorem lt_of_stagesBy_append_lt {d : DrawSel} {i : Nat} (h : stagesBy (draws ++ [d]) < i + 1) :
    stagesBy draws < i ∨ (draws = [] ∧ d = .old ∧ i = 0) := by
  obtain rfl | hne := eq_or_ne draws []
  · obtain rfl | hi := Nat.eq_zero_or_pos i
    · cases d with
      | old => exact .inr ⟨rfl, rfl, rfl⟩
      | new | free => exact absurd h (by decide)
    · exact .inl hi
  · rw [stagesBy_append hne] at h
    exact .inl (Nat.lt_of_succ_lt_succ h)

theorem length_le_samplesBy (draws : List DrawSel) : draws.length ≤ samplesBy draws :=
  Nat.le_add_right _ _

theorem stagesBy_le_length (draws : List DrawSel) : stagesBy draws ≤ draws.length := Nat.sub_le _ _

/-- `NS + 1` edges deliver, and so do `NS` with a new draw first. -/
theorem le_samplesBy {n : Nat}
    (h : n + 1 ≤ draws.length ∨ (n ≤ draws.length ∧ draws.head? = some .new)) :
    n + 1 ≤ samplesBy draws := by
  obtain hlen | ⟨hlen, hnew⟩ := h
  · exact hlen.trans (length_le_samplesBy draws)
  · rw [samplesBy, if_pos hnew]
    exact Nat.succ_le_succ hlen

/-- Draws that are all the same start with it. -/
theorem head?_eq_of_forall {d : DrawSel} (hne : draws ≠ []) (h : ∀ x ∈ draws, x = d) :
    draws.head? = some d := by
  rw [List.head?_eq_some_head hne, h _ (List.head_mem hne)]

end Draws

section Delivery
variable {α : Type} [Inhabited α] {n : Nat} {v : α} {b : LinkBook α} {c : Chain α n}
  {draws : List DrawSel} {e : Env}

theorem Delivered.mono {j k : Nat} (h : Delivered k v b c) (hjk : j ≤ k) : Delivered j v b c :=
  ⟨fun hj => h.clean (hj.trans hjk), fun i hi hij => h.arrived i hi (hij.trans_le hjk)⟩

/-- From `NS + 1` samples on every stage holds the value. -/
theorem Delivered.eq_fill_of_le {k : Nat} (h : Delivered k v b c) (hk : n + 1 ≤ k) :
    c = Chain.fill v := (h.mono hk).eq_fill

/-- A sample that takes the value at once counts twice. -/
theorem delivered_new (l : Link) (hnew : e.draw = .new) :
    Delivered 2 v b.sampled (c.shift (sample e l b v)) := by
  refine ⟨fun _ => rfl, fun j hj hj2 hjn => ?_⟩
  obtain rfl : j = 1 := Nat.le_antisymm (Nat.le_of_lt_succ hj2) hj
  rw [Chain.stage_one_shift _ _ hjn, sample_of_draw_new l b v hnew]

/-- One more edge with its draw. -/
theorem Delivered.shift_draw (h : Delivered (samplesBy draws) v b c) (l : Link) {d : DrawSel}
    (hdraw : e.draw = d) :
    Delivered (samplesBy (draws ++ [d])) v b.sampled (c.shift (sample e l b v)) := by
  obtain rfl | hne := eq_or_ne draws []
  · cases d with
    | new => exact delivered_new l hdraw
    | old | free => exact h.shift e l
  · rw [samplesBy_append hne]
    exact h.shift e l

end Delivery

section Crossing
variable {p : Params} {f g : Fifo p} {draws : List DrawSel}

/-! ### Idle edges out of reset -/

theorem writeSettling_draw (hrst : f.rst = false) (hres : f.wInReset = false)
    (hg : WriteSettling f (samplesBy draws) g) {e : Env} {d : DrawSel} (hdraw : e.draw = d)
    (x : Record p.W) : WriteSettling f (samplesBy (draws ++ [d])) (writeEdge e g false x) := by
  obtain ⟨hgrst, hgres, -⟩ := writeSettling_reset hg
  rw [writeEdge_idle e x (hgrst.trans hrst) (hgres.trans hres)]
  obtain ⟨wsyncR, wsyncU, rptr, udf, rfl, hrgray, hudf⟩ := hg
  exact ⟨_, _, _, _, rfl, hrgray.shift_draw .rptr hdraw, hudf.shift_draw .udf hdraw⟩

theorem readSettling_draw (hrst : f.rst = false) (hres : f.rInReset = false)
    (hg : ReadSettling f (samplesBy draws) g) {e : Env} {d : DrawSel} (hdraw : e.draw = d) :
    ReadSettling f (samplesBy (draws ++ [d])) (readEdge e g false) := by
  obtain ⟨hgrst, hgres⟩ := readSettling_reset hg
  rw [readEdge_idle e (hgrst.trans hrst) (hgres.trans hres)]
  obtain ⟨rsyncW, rsyncO, wptr, ovf, rfl, hwgray, hovf⟩ := hg
  exact ⟨_, _, _, _, rfl, hwgray.shift_draw .wptr hdraw, hovf.shift_draw .ovf hdraw⟩

theorem run_writeSettling (hrst : f.rst = false) (hres : f.wInReset = false) (draws : List DrawSel)
    (rest : List PinEvent) (ds : DrawSel) (tick : Nat) :
    ∃ g ds' tick', run draws.length ⟨p, f, ⟨lineEvents p (idleW draws) ++ rest, ds, tick⟩⟩ =
      .next ⟨p, g, ⟨rest, ds', tick'⟩⟩ ∧ WriteSettling f (samplesBy draws) g := by
  have hop : ∀ l ∈ idleW draws, l.op = .widle 0 := by simp [idleW]
  have hrun := run_edges (P := fun draws => WriteSettling f (samplesBy draws)) (ls := idleW draws)
    (fun l hl => hop l hl ▸ decide_eq_true (Nat.two_pow_pos p.W))
    (fun l hl => hop l hl ▸ by decide)
    (fun l hl draws g g' e hg hdraw hexec => by
      rw [hop l hl, exec_widle] at hexec
      cases hexec
      exact writeSettling_draw hrst hres hg hdraw _)
    (draws := []) (writeSettling_zero f) rest ds tick
  simpa [idleW, Function.comp_def] using hrun

theorem run_readSettling (hrst : f.rst = false) (hres : f.rInReset = false) (draws : List DrawSel)
    (rest : List PinEvent) (ds : DrawSel) (tick : Nat) :
    ∃ g ds' tick', run draws.length ⟨p, f, ⟨lineEvents p (idleR draws) ++ rest, ds, tick⟩⟩ =
      .next ⟨p, g, ⟨rest, ds', tick'⟩⟩ ∧ ReadSettling f (samplesBy draws) g := by
  have hop : ∀ l ∈ idleR draws, l.op = .ridle := by simp [idleR]
  have hrun := run_edges (P := fun draws => ReadSettling f (samplesBy draws)) (ls := idleR draws)
    (fun l hl => hop l hl ▸ rfl)
    (fun l hl => hop l hl ▸ by decide)
    (fun l hl draws g g' e hg hdraw hexec => by
      rw [hop l hl, exec_ridle] at hexec
      cases hexec
      exact readSettling_draw hrst hres hg hdraw)
    (draws := []) (readSettling_zero f) rest ds tick
  simpa [idleR, Function.comp_def] using hrun

/-- A read domain that sees the write index sees every record. -/
theorem readableR_of_arrived (hd : DomainInv f) (hbin : g.rd.rbin = f.rd.rbin)
    (harrived : g.rd.rsyncW = Chain.fill f.wr.wgray) : g.readableR = f.occupancy := by
  rw [Fifo.readableR, Fifo.rqWbin, harrived, Chain.last_fill _ (Nat.le_of_succ_le p.NS_two),
    hd.wgray_eq, bin_gray, hbin, Fifo.occupancy]

/-- A write domain that sees the read index sees every free slot but the sentinel. -/
theorem writableW_of_arrived (hd : DomainInv f) (hbin : g.wr.wbin = f.wr.wbin)
    (harrived : g.wr.wsyncR = Chain.fill f.rd.rgray) :
    g.writableW.toNat + f.occupancy.toNat = p.C - 1 := by
  have hbehind : behindWrite g f.rd.rgray = f.occupancy.toNat := by
    rw [← behindWrite_rgray hd, behindWrite, behindWrite, hbin]
  rw [writableW_toNat, harrived, Chain.last_fill _ (Nat.le_of_succ_le p.NS_two), hbehind]
  exact Nat.sub_add_cancel (toNat_le_capacity _)

end Crossing

/-! ### A reset synchronizer after a fall of `rst` -/

section Fall
variable {n : Nat} {b : LinkBook Bool} {c : Chain Bool n} {draws : List DrawSel} {e : Env}

/-- What edges with these draws make of a reset synchronizer that was all 1 when `rst` fell, the domain
being stepped until its stage `NS` is 0: the 0 has come as far as the samples bring it, and beyond the
stages that they can have changed it is 1 still. -/
structure Falling (draws : List DrawSel) (b : LinkBook Bool) (c : Chain Bool n) : Prop where
  unsampled : draws = [] → b = ⟨true, true⟩
  delivered : c.last = true → Delivered (samplesBy draws) false b c
  remaining : ∀ j, stagesBy draws < j → j ≤ n → c.stage j = true

theorem falling_nil : Falling [] ⟨true, true⟩ (Chain.fill true : Chain Bool n) where
  unsampled _ := rfl
  delivered _ := delivered_zero _ _ _
  remaining _ hj hjn := Chain.stage_fill true (Nat.one_le_of_lt hj) hjn

/-- A release edge. -/
theorem Falling.shift (h : Falling draws b c) (hlast : c.last = true) (l : Link) {d : DrawSel}
    (hdraw : e.draw = d) : Falling (draws ++ [d]) b.sampled (c.shift (sample e l b false)) where
  unsampled hnil := absurd hnil (by simp)
  delivered _ := (h.delivered hlast).shift_draw l hdraw
  remaining j hj hjn := by
    obtain ⟨i, rfl⟩ := Nat.exists_eq_succ_of_ne_zero (Nat.ne_zero_of_lt hj)
    obtain hi | ⟨hnil, rfl, rfl⟩ := lt_of_stagesBy_append_lt hj
    · rw [Chain.stage_succ_shift c _ (Nat.one_le_of_lt hi) hjn]
      exact h.remaining i hi (Nat.le_of_succ_le hjn)
    · rw [Chain.stage_one_shift c _ hjn, h.unsampled hnil, sample_of_draw_old l false hdraw rfl]

/-- An edge of a domain out of reset leaves its reset synchronizer alone. -/
theorem Falling.stay (h : Falling draws b c) (hlast : c.last = false) (d : DrawSel) :
    Falling (draws ++ [d]) b c where
  unsampled hnil := absurd hnil (by simp)
  delivered hone := absurd (hlast.symm.trans hone) Bool.false_ne_true
  remaining j hj hjn := by
    refine h.remaining j ?_ hjn
    obtain rfl | hne := eq_or_ne draws []
    · exact Nat.zero_lt_of_lt hj
    · rw [stagesBy_append hne] at hj
      exact Nat.lt_of_succ_lt hj

/-- As long as the edges cannot have changed stage `NS` the domain is in reset. -/
theorem Falling.last_eq_true (h : Falling draws b c) (hstages : stagesBy draws < n) :
    c.last = true := h.remaining n hstages le_rfl

/-- Once the samples bring the 0 to stage `NS` the domain is out of reset. -/
theorem Falling.last_eq_false (h : Falling draws b c) (hn : 1 ≤ n)
    (hsamples : n + 1 ≤ samplesBy draws) : c.last = false := by
  refine Bool.eq_false_iff.2 fun hlast => ?_
  rw [(h.delivered hlast).eq_fill_of_le hsamples, Chain.last_fill false hn] at hlast
  exact Bool.false_ne_true hlast

/-- When a domain leaves reset: not before `NS` edges, after `NS + 1` in any case, and at `NS` as the
draws decide (42_cdc_sync.md R150). -/
theorem Falling.boundaries {ls : List StimLine} (h : Falling (ls.map StimLine.draw) b c) (hn : 1 ≤ n) :
    (ls.length < n → c.last = true) ∧
    (ls.length = n → (∀ l ∈ ls, l.draw = .old) → c.last = true) ∧
    (ls.length = n → (∀ l ∈ ls, l.draw = .new) → c.last = false) ∧
    (n + 1 ≤ ls.length → c.last = false) := by
  have hlen : (ls.map StimLine.draw).length = ls.length := List.length_map _
  have hhead : ∀ {d}, ls.length = n → (∀ l ∈ ls, l.draw = d) →
      (ls.map StimLine.draw).head? = some d := fun hls hall =>
    head?_eq_of_forall (List.ne_nil_of_length_pos (by omega)) (List.forall_mem_map.2 hall)
  refine ⟨fun hls => ?before, fun hls hold => ?old, fun hls hnew => ?new, fun hls => ?after⟩
  case before => exact h.last_eq_true ((stagesBy_le_length _).trans_lt (hlen ▸ hls))
  case old =>
    refine h.last_eq_true ?_
    rw [stagesBy, if_pos (hhead hls hold)]
    omega
  case new => exact h.last_eq_false hn (le_samplesBy (.inr ⟨by omega, hhead hls hnew⟩))
  case after => exact h.last_eq_false hn (le_samplesBy (.inl (by omega)))

end Fall

section Release
variable {p : Params} {f g : Fifo p} {draws : List DrawSel}

/-- What `wr_clk` edges with these draws make of a block in which `rst` has just fallen. Up to the edge
that leaves reset, `ovf` follows the reset synchronizer. -/
structure WriteFalling (draws : List DrawSel) (g : Fifo p) : Prop where
  rst_low : g.rst = false
  falling : Falling draws g.links.wRst g.wr.wrst
  ovf_eq : draws ≠ [] → draws.length ≤ p.NS → g.wr.ovf = g.wInReset

/-- What `rd_clk` edges with these draws make of a block in which `rst` has just fallen. -/
structure ReadFalling (draws : List DrawSel) (g : Fifo p) : Prop where
  rst_low : g.rst = false
  falling : Falling draws g.links.rRst g.rd.rrst

theorem writeFalling_dropReset (h : ResetInv f) (hrst : f.rst = true) :
    WriteFalling [] (dropReset f) where
  rst_low := rfl
  falling := by
    rw [dropReset_links_wRst, dropReset_wr, h.1.held hrst, hrst, changed_ne _ (by decide)]
    exact falling_nil
  ovf_eq hne := absurd rfl hne

theorem readFalling_dropReset (h : ResetInv f) (hrst : f.rst = true) :
    ReadFalling [] (dropReset f) where
  rst_low := rfl
  falling := by
    rw [dropReset_links_rRst, dropReset_rd, h.2.held hrst, hrst, changed_ne _ (by decide)]
    exact falling_nil

theorem writeFalling_writeEdge (h : WriteFalling draws g) {e : Env} {d : DrawSel} (hdraw : e.draw = d)
    (en : Bool) (x : Record p.W) : WriteFalling (draws ++ [d]) (writeEdge e g en x) := by
  cases hres : g.wInReset with
  | true =>
    rw [writeEdge_releasing e en x h.rst_low hres]
    exact {
      rst_low := h.rst_low
      falling := by
        rw [releaseStepW_links_wRst, releaseStepW_wr_wrst, h.rst_low]
        exact h.falling.shift hres .wRst hdraw
      ovf_eq := fun _ _ => (releaseStepW_wInReset e g).symm }
  | false =>
    obtain ⟨-, hwrst, hrst, hlink, -⟩ := writeEdge_frame e en x h.rst_low hres
    refine ⟨hrst.trans h.rst_low, ?_, fun _ hlen => ?_⟩
    · rw [hwrst, hlink]
      exact h.falling.stay hres d
    · rw [List.length_append, List.length_singleton] at hlen
      have hlast := h.falling.last_eq_true ((stagesBy_le_length draws).trans_lt hlen)
      exact absurd (hres.symm.trans hlast) Bool.false_ne_true

theorem readFalling_readEdge (h : ReadFalling draws g) {e : Env} {d : DrawSel} (hdraw : e.draw = d)
    (en : Bool) : ReadFalling (draws ++ [d]) (readEdge e g en) := by
  cases hres : g.rInReset with
  | true =>
    rw [readEdge_releasing e en h.rst_low hres]
    refine ⟨h.rst_low, ?_⟩
    rw [releaseStepR_links_rRst, releaseStepR_rd_rrst, h.rst_low]
    exact h.falling.shift hres .rRst hdraw
  | false =>
    obtain ⟨-, hrrst, hrst, -, hlink⟩ := readEdge_frame e en h.rst_low hres
    refine ⟨hrst.trans h.rst_low, ?_⟩
    rw [hrrst, hlink]
    exact h.falling.stay hres d

theorem run_writeFalling (h : ResetInv f) (hrst : f.rst = true) {ls : List StimLine}
    (hwf : ∀ l ∈ ls, l.op.wf p.W = true) (hport : ∀ l ∈ ls, l.op.format = .wport)
    (rest : List PinEvent) (ds : DrawSel) (tick : Nat) :
    ∃ g ds' tick', run (ls.length + 1)
        ⟨p, f, ⟨lineEvents p (plainLine .rstRelease :: ls) ++ rest, ds, tick⟩⟩ =
      .next ⟨p, g, ⟨rest, ds', tick'⟩⟩ ∧ WriteFalling (ls.map StimLine.draw) g := by
  obtain ⟨g, ds', tick', hrun, hg⟩ := run_edges (P := WriteFalling) hwf
    (fun l hl => hport l hl ▸ by decide)
    (fun l hl draws g g' e hg hdraw hexec => by
      obtain ⟨en, x, hedge⟩ := exec_wport (hport l hl) (hwf l hl) g e
      cases hedge.symm.trans hexec
      exact writeFalling_writeEdge hg hdraw en x)
    (writeFalling_dropReset h hrst) rest .free (tick + 1)
  exact ⟨g, ds', tick', run_fall hrst ds hrun, hg⟩

theorem run_readFalling (h : ResetInv f) (hrst : f.rst = true) {ls : List StimLine}
    (hwf : ∀ l ∈ ls, l.op.wf p.W = true) (hport : ∀ l ∈ ls, l.op.format = .rport)
    (rest : List PinEvent) (ds : DrawSel) (tick : Nat) :
    ∃ g ds' tick', run (ls.length + 1)
        ⟨p, f, ⟨lineEvents p (plainLine .rstRelease :: ls) ++ rest, ds, tick⟩⟩ =
      .next ⟨p, g, ⟨rest, ds', tick'⟩⟩ ∧ ReadFalling (ls.map StimLine.draw) g := by
  obtain ⟨g, ds', tick', hrun, hg⟩ := run_edges (P := ReadFalling) hwf
    (fun l hl => hport l hl ▸ by decide)
    (fun l hl draws g g' e hg hdraw hexec => by
      obtain ⟨en, hedge⟩ := exec_rport (hport l hl) g e
      cases hedge.symm.trans hexec
      exact readFalling_readEdge hg hdraw en)
    (readFalling_dropReset h hrst) rest .free (tick + 1)
  exact ⟨g, ds', tick', run_fall hrst ds hrun, hg⟩

end Release

/-! ### The statements -/

/-- Settles O34, by induction on the idle edges: each sample brings the other side's registers one stage
further, and a new draw first saves the one that may still take the value before. -/
theorem idleEdgesDeliverTheOtherSide : Obligations.IdleEdgesDeliverTheOtherSide := by
  intro p f l rest ds tick hrst
  constructor
  · intro hres
    obtain ⟨g, ds', tick', hrun, rsyncW, rsyncO, wptr, ovf, rfl, hwgray, hovf⟩ :=
      run_readSettling hrst hres l rest ds tick
    refine ⟨_, _, hrun, rfl, rfl, rfl, rfl, fun henough => ?_⟩
    have hsync := hwgray.eq_fill_of_le (le_samplesBy henough)
    exact ⟨hsync, hovf.eq_fill_of_le (le_samplesBy henough),
      fun hd => readableR_of_arrived hd rfl hsync⟩
  · intro hres
    obtain ⟨g, ds', tick', hrun, wsyncR, wsyncU, rptr, udf, rfl, hrgray, hudf⟩ :=
      run_writeSettling hrst hres l rest ds tick
    refine ⟨_, _, hrun, rfl, rfl, rfl, rfl, fun henough => ?_⟩
    have hsync := hrgray.eq_fill_of_le (le_samplesBy henough)
    exact ⟨hsync, hudf.eq_fill_of_le (le_samplesBy henough),
      fun hd => writableW_of_arrived hd rfl hsync⟩

/-- Settles O13, by induction on the edges: every release edge shifts the reset synchronizer once, so
the 0 is in stage `NS` after `NS` edges if the first draw took it, and one edge later if not. -/
theorem domainsLeaveResetAfterNSEdges : Obligations.DomainsLeaveResetAfterNSEdges := by
  intro p f ls rest ds tick hinv hrst hwf
  have hpos : 1 ≤ p.NS := Nat.le_of_succ_le p.NS_two
  constructor
  · intro hport
    obtain ⟨g, ds', tick', hrun, hg⟩ := run_writeFalling hinv hrst hwf hport rest ds tick
    obtain ⟨hbefore, hold, hnew, hafter⟩ := hg.falling.boundaries hpos
    refine ⟨g, _, hrun, rfl, hg.rst_low, hbefore, hold, fun hls hdraws => ?_, hafter⟩
    have hout : g.wInReset = false := hnew hls hdraws
    have hlen : (ls.map StimLine.draw).length = p.NS := (List.length_map _).trans hls
    have hovf := hg.ovf_eq (List.ne_nil_of_length_pos (hlen ▸ hpos)) hlen.le
    exact ⟨hout, hovf.trans hout⟩
  · intro hport
    obtain ⟨g, ds', tick', hrun, hg⟩ := run_readFalling hinv hrst hwf hport rest ds tick
    exact ⟨g, _, hrun, rfl, hg.rst_low, hg.falling.boundaries hpos⟩

end Sys2Proof.Machine
end

section
/-! PROOFS. The block has no exceptions: every operation completes, and it stays inside the domain of
its own port, except that `rst` acts on both (60_exceptions.md R160, R172). -/

namespace Sys2Proof.Machine

open Sys2Proof

section ForcedRegisters
variable {p : Params}

/-! ### What a rise of `rst` forces (70_reset_and_hazards.md R180) -/

/-- Whatever the block was doing, a rise of `rst` puts the write domain where the first one put it. -/
theorem forceReset_wr (f : Fifo p) : (forceReset f).wr = (Fifo.reset p).wr := rfl

theorem forceReset_rd (f : Fifo p) : (forceReset f).rd = (Fifo.reset p).rd := rfl

end ForcedRegisters

/-! ### The statements -/

/-- Settles O6: a well-formed push fits the port, so the only refusal of the meaning does not arise. -/
theorem everyOperationCompletes : Obligations.EveryOperationCompletes :=
  fun _ f e _ hwf => exec_next_of_wf f e hwf

/-- Settles O46, by the port of the operation: a `wr_clk` edge and an `rd_clk` edge each leave the other
domain, and a change of `rst` leaves storage. -/
theorem portsChangeOnlyTheirOwnDomain : Obligations.PortsChangeOnlyTheirOwnDomain := by
  intro p f g e i hexec
  obtain ⟨hport, en, d, -, rfl⟩ | ⟨hport, en, -, rfl⟩ | ⟨rfl, rfl⟩ | ⟨rfl, rfl⟩ :=
    exec_port_cases hexec
  · rw [hport]
    exact ⟨fun _ => ⟨writeEdge_rd e f en d, writeEdge_rst e f en d⟩, nofun, nofun⟩
  · rw [hport]
    exact ⟨nofun, fun _ => ⟨readEdge_wr e f en, readEdge_storage e f en, readEdge_rst e f en⟩, nofun⟩
  · refine ⟨nofun, nofun, fun _ => ⟨?storage, fun hlow _ => ?registers⟩⟩
    case storage => split <;> simp only [forceReset_storage]
    case registers =>
      rw [hlow]
      exact ⟨forceReset_wr f, forceReset_rd f⟩
  · refine ⟨nofun, nofun, fun _ => ⟨?_, fun _ hop => nomatch hop⟩⟩
    split <;> simp only [dropReset_storage]

end Sys2Proof.Machine
end

section
/-! PROOFS. Reset and the events of its input: waiting and refused events, a rise of `rst` with the block
held in reset after it, a fall of `rst`, and the outputs in reset (70_reset_and_hazards.md R180 to R189). -/

namespace Sys2Proof

/-- The decoder names a broken duty before it looks at the vector. -/
theorem decode_of_brokenDuty {w : Nat} {ev : PinEvent} {r : Reject} (h : ev.brokenDuty = some r) :
    decode w ev = .error r := by
  simp only [decode, h]

namespace Machine

/-! ### Steps that run no operation -/

/-- With nothing to fetch the block waits (70_reset_and_hazards.md R185). -/
theorem step_eq_wait {s : State} (hf : fetch s = none) : step s = .next s := by
  simp only [step, hf]

/-- A step whose event does not decode refuses it by the decoder's name (30_encoding.md R71). -/
theorem step_eq_refused {s t : State} {ev : PinEvent} {r : Reject} (hf : fetch s = some (ev, t))
    (hd : decode s.cfg.W ev = .error r) : step s = .refused (.badEvent r) := by
  simp only [step, hf, hd]

section Reset
variable {p : Params} {f : Fifo p}

/-! ### The events of `rst` and the hold (70_reset_and_hazards.md R180, R181) -/

theorem exec_rstAssert_rise (e : Env) (hrst : f.rst = false) :
    exec .rstAssert ⟨p, f, e⟩ = .next ⟨p, forceReset f, e⟩ := by
  simp [exec_rstAssert, hrst]

theorem exec_rstRelease_fall (e : Env) (hrst : f.rst = true) :
    exec .rstRelease ⟨p, f, e⟩ = .next ⟨p, dropReset f, e⟩ := by
  simp [exec_rstRelease, hrst]

/-- While `rst = 1` only its fall is an event for the block: both edges are held and asserting again is
no rise. -/
theorem exec_held {i : Instr} (e : Env) (hrst : f.rst = true) (hwf : i.wf p.W = true)
    (hfall : i ≠ .rstRelease) : exec i ⟨p, f, e⟩ = .next ⟨p, f, e⟩ := by
  have hwport (hport : i.format = .wport) : exec i ⟨p, f, e⟩ = .next ⟨p, f, e⟩ := by
    obtain ⟨en, d, hexec⟩ := exec_wport hport hwf f e
    rw [hexec, writeEdge_held e en d hrst]
  have hrport (hport : i.format = .rport) : exec i ⟨p, f, e⟩ = .next ⟨p, f, e⟩ := by
    obtain ⟨en, hexec⟩ := exec_rport hport f e
    rw [hexec, readEdge_held e en hrst]
  cases i with
  | push | widle => exact hwport rfl
  | pop | ridle => exact hrport rfl
  | rstAssert => simp [exec_rstAssert, hrst]
  | rstRelease => exact absurd rfl hfall

/-- A fall of `rst` from 1 leaves both reset links with the old level and an open draw
(42_cdc_sync.md R143). -/
theorem dropReset_links (hrst : f.rst = true) :
    (dropReset f).links = { f.links with wRst := ⟨true, true⟩, rRst := ⟨true, true⟩ } := by
  simp only [dropReset, hrst, changed_ne _ Bool.false_ne_true]

/-! ### What the ports show after a rise of `rst` (10_state.md, section 7) -/

theorem forceReset_wqRbin (f : Fifo p) : (forceReset f).wqRbin = 0#p.AW := by
  rw [Fifo.wqRbin, forceReset_wr_wsyncR, Chain.last_fill _ (Nat.le_of_succ_le p.NS_two), bin_zero]

theorem forceReset_writableW_toNat (f : Fifo p) : (forceReset f).writableW.toNat = p.C - 1 := by
  rw [writableW_toNat_of_view_zero (forceReset_wqRbin f), forceReset_wr_wbin, BitVec.toNat_zero,
    Nat.sub_zero]

theorem forceReset_wInReset (f : Fifo p) : (forceReset f).wInReset = true :=
  wInReset_of_rst (resetInv_forceReset f) rfl

theorem forceReset_rInReset (f : Fifo p) : (forceReset f).rInReset = true :=
  rInReset_of_rst (resetInv_forceReset f) rfl

theorem forceReset_rdEmpty (f : Fifo p) : (forceReset f).rdEmpty = true :=
  rdEmpty_of_rInReset (domainInv_forceReset f) (forceReset_rInReset f)

theorem forceReset_readableR (f : Fifo p) : (forceReset f).readableR = 0#p.AW :=
  of_decide_eq_true (forceReset_rdEmpty f)

/-- The write side shows the whole capacity, which is at least one slot (00_scope.md R9). -/
theorem forceReset_wrFull (f : Fifo p) : (forceReset f).wrFull = false := by
  have hcap : 2 ^ 1 ≤ p.C := Nat.pow_le_pow_right Nat.two_pos p.AW_pos
  have hcount := forceReset_writableW_toNat f
  exact Bool.eq_false_iff.2 (mt (decide_eq_zero_iff_toNat _).1 (by omega))

theorem forceReset_wrReady (f : Fifo p) : (forceReset f).wrReady = false := by
  simp [Fifo.wrReady, forceReset_wInReset]

theorem forceReset_rdReady (f : Fifo p) : (forceReset f).rdReady = false := by
  simp [Fifo.rdReady, forceReset_rInReset]

/-- From index 0 no count is cut by the wrap. -/
theorem forceReset_wrSpan_toNat (f : Fifo p) : (forceReset f).wrSpan.toNat = p.C - 1 := by
  rw [wrSpan_toNat, forceReset_writableW_toNat, forceReset_wr_wbin, BitVec.toNat_zero]
  omega

theorem forceReset_rdSpan_toNat (f : Fifo p) : (forceReset f).rdSpan.toNat = 0 := by
  rw [rdSpan_toNat, forceReset_readableR, BitVec.toNat_zero, Nat.zero_min]

theorem forceReset_wrUnderrun (f : Fifo p) : (forceReset f).wrUnderrun = false :=
  Chain.last_fill false (Nat.le_of_succ_le p.NS_two)

theorem forceReset_rdOverrun (f : Fifo p) : (forceReset f).rdOverrun = true :=
  (domainInv_forceReset f).rd_overrun_in_reset (forceReset_rInReset f)

/-- The machine right after reset is where a rise of `rst` leads from empty storage (log 2). -/
theorem resetOf_eq_forceReset (p : Params) :
    State.resetOf p = ⟨p, forceReset (Fifo.reset p), ⟨[], .free, 0⟩⟩ := rfl

end Reset

/-! ### The statements -/

/-- Settles O9: the rise is `forceReset`, whose chains hold one value in every stage; while `rst = 1` the
block is held. -/
theorem riseOfRstForcesResetValues : Obligations.RiseOfRstForcesResetValues := by
  refine ⟨fun p f e hrst => ?_, fun p f e i hrst hwf hfall => exec_held e hrst hwf hfall⟩
  refine ⟨forceReset f, exec_rstAssert_rise e hrst, rfl, rfl, rfl, rfl, rfl, rfl, rfl, fun k hk hkn => ?_,
    rfl, rfl, rfl, rfl, rfl, rfl, rfl, forceReset_readableR f, forceReset_writableW_toNat f⟩
  have hstage {α : Type} [Inhabited α] (v : α) : (Chain.fill v : Chain α p.NS).stage k = v :=
    Chain.stage_fill v hk hkn
  exact ⟨hstage _, hstage _, hstage _, hstage _, hstage _, hstage _⟩

/-- Settles O39: the forced registers meet every invariant, and storage, which the rise leaves alone, is
canonical already; the empty list of power-on is canonical. -/
theorem riseOfRstEstablishesTheInvariants : Obligations.RiseOfRstEstablishesTheInvariants := by
  refine ⟨fun p f e hrst hstore => ⟨forceReset f, exec_rstAssert_rise e hrst, inv_forceReset hstore⟩,
    fun p f hpower => ?_⟩
  rw [StorageInv, show f.storage = [] from hpower]
  exact Memory.wf_nil p.C

/-- Settles O5: the step answers as the fetch and the decoder do, and a runt pulse is a broken duty,
which the decoder checks first. -/
theorem stepWaitsAndRefusesBadEvents : Obligations.StepWaitsAndRefusesBadEvents :=
  ⟨fun _ _ _ _ => step_eq_wait rfl, fun _ _ _ _ _ _ _ hd => step_eq_refused (fetch_cons ..) hd,
    fun _ _ => decode_of_brokenDuty rfl⟩

/-- Settles O10: the fall is `dropReset`, and both reset links see their source leave 1. -/
theorem fallOfRstMarksResetLinks : Obligations.FallOfRstMarksResetLinks := by
  intro p f e
  refine ⟨fun hrst => ⟨dropReset f, exec_rstRelease_fall e hrst, rfl, rfl, rfl, rfl,
    dropReset_links hrst⟩, fun hrst => ?_⟩
  simp [exec_rstRelease, hrst]

/-- Settles O27: the state right after reset is one that a rise of `rst` leaves, where both indices and
both views of them are 0. -/
theorem outputsRightAfterReset : Obligations.OutputsRightAfterReset := by
  intro p obs
  rw [resetOf_eq_forceReset]
  generalize Fifo.reset p = f
  have hempty := forceReset_rdEmpty f
  exact ⟨forceReset_writableW_toNat f, forceReset_wrFull f, rfl, forceReset_wrReady f,
    forceReset_wrSpan_toNat f, BitVec.toNat_zero, forceReset_wrUnderrun f,
    (decide_eq_zero_iff_toNat _).1 hempty, hempty, forceReset_rdReady f, forceReset_rdSpan_toNat f,
    BitVec.toNat_zero, rfl, forceReset_rdOverrun f⟩

end Machine

end Sys2Proof
end
